-- ==== Sys2Proof/Word.lean ====
section
/-! DEFINITION. The word types of the machine (00_scope.md section 7: every value is unsigned). -/

namespace Sys2Proof

/-- A byte: a V register, a timer, a byte of memory, the immediate `nn`. -/
abbrev Byte := BitVec 8

/-- A 16-bit word: PC, I, a return address, an instruction word. -/
abbrev Word := BitVec 16

/-- A 4-bit instruction field: a register index `x` or `y`, the row count `n`, the family digit. -/
abbrev Nibble := BitVec 4

/-- A 12-bit instruction field: the address immediate `nnn`. -/
abbrev Addr12 := BitVec 12

end Sys2Proof
end

