-- ==== Sys2Proof/Syntax.lean ====
section
/-! DEFINITION. The instructions: one constructor per row of the opcode table (30_encoding.md R53), operands as
R52 gives them. -/

namespace Sys2Proof

/-- The 34 instructions. `x`, `y` are register indices, `nn` an 8-bit, `nnn` a 12-bit immediate, `n` a row count.
`shr` and `shl` have no `y`: every value of that field decodes to the same instruction (30_encoding.md R56). -/
inductive Instr where
  /-- `00E0` CLS, R121 -/
  | cls
  /-- `00EE` RET, R78 -/
  | ret
  /-- `1NNN` JP nnn, R76 -/
  | jp (nnn : Addr12)
  /-- `2NNN` CALL nnn, R77 -/
  | call (nnn : Addr12)
  /-- `3XNN` SE Vx, nn, R80 -/
  | seImm (x : Nibble) (nn : Byte)
  /-- `4XNN` SNE Vx, nn, R81 -/
  | sneImm (x : Nibble) (nn : Byte)
  /-- `5XY0` SE Vx, Vy, R82 -/
  | seReg (x y : Nibble)
  /-- `6XNN` LD Vx, nn, R90 -/
  | ldImm (x : Nibble) (nn : Byte)
  /-- `7XNN` ADD Vx, nn, R91 -/
  | addImm (x : Nibble) (nn : Byte)
  /-- `8XY0` LD Vx, Vy, R92 -/
  | ldReg (x y : Nibble)
  /-- `8XY1` OR Vx, Vy, R93 -/
  | orReg (x y : Nibble)
  /-- `8XY2` AND Vx, Vy, R94 -/
  | andReg (x y : Nibble)
  /-- `8XY3` XOR Vx, Vy, R95 -/
  | xorReg (x y : Nibble)
  /-- `8XY4` ADD Vx, Vy, R96 -/
  | addReg (x y : Nibble)
  /-- `8XY5` SUB Vx, Vy, R97 -/
  | subReg (x y : Nibble)
  /-- `8XY6` SHR Vx, R98 -/
  | shr (x : Nibble)
  /-- `8XY7` SUBN Vx, Vy, R99 -/
  | subnReg (x y : Nibble)
  /-- `8XYE` SHL Vx, R100 -/
  | shl (x : Nibble)
  /-- `9XY0` SNE Vx, Vy, R83 -/
  | sneReg (x y : Nibble)
  /-- `ANNN` LD I, nnn, R110 -/
  | ldI (nnn : Addr12)
  /-- `BNNN` JP V0, nnn, R79 -/
  | jpV0 (nnn : Addr12)
  /-- `CXNN` RND Vx, nn, R105 -/
  | rnd (x : Nibble) (nn : Byte)
  /-- `DXYN` DRW Vx, Vy, n, R122 -/
  | drw (x y n : Nibble)
  /-- `EX9E` SKP Vx, R130 -/
  | skp (x : Nibble)
  /-- `EXA1` SKNP Vx, R131 -/
  | sknp (x : Nibble)
  /-- `FX07` LD Vx, DT, R133 -/
  | ldVxDt (x : Nibble)
  /-- `FX0A` LD Vx, K, R132 -/
  | ldVxK (x : Nibble)
  /-- `FX15` LD DT, Vx, R134 -/
  | ldDtVx (x : Nibble)
  /-- `FX18` LD ST, Vx, R135 -/
  | ldStVx (x : Nibble)
  /-- `FX1E` ADD I, Vx, R111 -/
  | addI (x : Nibble)
  /-- `FX29` LD F, Vx, R112 -/
  | ldF (x : Nibble)
  /-- `FX33` LD B, Vx, R113 -/
  | ldB (x : Nibble)
  /-- `FX55` LD [I], Vx, R114 -/
  | stRegs (x : Nibble)
  /-- `FX65` LD Vx, [I], R115 -/
  | ldRegs (x : Nibble)
deriving DecidableEq, Repr

end Sys2Proof
end

