-- ==== Sys2Proof/WellFormed.lean ====
section
/-! DEFINITION. The operand ranges of 30_encoding.md R51 and R52, as checks on plain numbers, and the check of an
instruction made of them. The operand types of `Instr` already carry these ranges, so every term of `Instr` passes
(log 24); the checks matter to whoever builds an instruction from numbers. -/

namespace Sys2Proof

/-- `x` and `y` name V[0] to V[15]: "every index is a valid register" (R52). -/
def regInRange (k : Nat) : Bool := decide (k < 16)

/-- `n` is a row count 0..15 (R52). -/
def rowsInRange (k : Nat) : Bool := decide (k < 16)

/-- `nn` is an 8-bit unsigned immediate (R52). -/
def imm8InRange (k : Nat) : Bool := decide (k < 256)

/-- `nnn` is a 12-bit unsigned immediate (R52). -/
def addrInRange (k : Nat) : Bool := decide (k < 4096)

/-- Every operand of the instruction is in the range R52 gives it. -/
def Instr.wellFormed : Instr → Bool
  | .cls | .ret => true
  | .jp nnn | .call nnn | .ldI nnn | .jpV0 nnn => addrInRange nnn.toNat
  | .seImm x nn | .sneImm x nn | .ldImm x nn | .addImm x nn | .rnd x nn =>
    regInRange x.toNat && imm8InRange nn.toNat
  | .seReg x y | .sneReg x y | .ldReg x y | .orReg x y | .andReg x y | .xorReg x y
  | .addReg x y | .subReg x y | .subnReg x y => regInRange x.toNat && regInRange y.toNat
  | .drw x y n => regInRange x.toNat && regInRange y.toNat && rowsInRange n.toNat
  | .shr x | .shl x | .skp x | .sknp x | .ldVxDt x | .ldVxK x | .ldDtVx x | .ldStVx x
  | .addI x | .ldF x | .ldB x | .stRegs x | .ldRegs x => regInRange x.toNat

end Sys2Proof
end

