-- ==== Sys2Proof/Decode.lean ====
section
/-! DEFINITION. Fields, decoder, encoder (30_encoding.md R50 to R56), and the mask and match columns of R53. -/

namespace Sys2Proof

/-! ## Fields of an instruction word (R51) -/

/-- `op` = w[15:12] -/
def opField (w : Word) : Nibble := w.extractLsb' 12 4
/-- `x` = w[11:8] -/
def xField (w : Word) : Nibble := w.extractLsb' 8 4
/-- `y` = w[7:4] -/
def yField (w : Word) : Nibble := w.extractLsb' 4 4
/-- `n` = w[3:0] -/
def nField (w : Word) : Nibble := w.extractLsb' 0 4
/-- `nn` = w[7:0] -/
def nnField (w : Word) : Byte := w.extractLsb' 0 8
/-- `nnn` = w[11:0] -/
def nnnField (w : Word) : Addr12 := w.extractLsb' 0 12

/-- Format NNN: op, nnn (R51). -/
def packNNN (op : Nibble) (nnn : Addr12) : Word :=
  BitVec.ofNat 16 (op.toNat * 4096 + nnn.toNat)
/-- Formats XNN and X: op, x, nn (R51: `nnn = x*256 + nn`). -/
def packXNN (op x : Nibble) (nn : Byte) : Word :=
  BitVec.ofNat 16 (op.toNat * 4096 + x.toNat * 256 + nn.toNat)
/-- Format XYN: op, x, y, n (R51: `nn = y*16 + n`). -/
def packXYN (op x y n : Nibble) : Word :=
  BitVec.ofNat 16 (op.toNat * 4096 + x.toNat * 256 + y.toNat * 16 + n.toNat)

/-- The word of two consecutive bytes, high byte first (20_memory.md R34). -/
def joinBytes (hi lo : Byte) : Word := BitVec.ofNat 16 (hi.toNat * 256 + lo.toNat)
/-- The byte at the lower address: bits 15:8. -/
def hiByte (w : Word) : Byte := w.extractLsb' 8 8
/-- The byte at the higher address: bits 7:0. -/
def loByte (w : Word) : Byte := w.extractLsb' 0 8

/-! ## Decoder -/

/-- Family 8: the low digit selects the operation (R53). -/
def decodeAlu (x y n : Nibble) : Option Instr :=
  match n with
  | 0x0#4 => some (.ldReg x y)
  | 0x1#4 => some (.orReg x y)
  | 0x2#4 => some (.andReg x y)
  | 0x3#4 => some (.xorReg x y)
  | 0x4#4 => some (.addReg x y)
  | 0x5#4 => some (.subReg x y)
  | 0x6#4 => some (.shr x)
  | 0x7#4 => some (.subnReg x y)
  | 0xE#4 => some (.shl x)
  | _ => none

/-- Family E: the low byte selects the instruction (R53). -/
def decodeKeySkip (x : Nibble) (nn : Byte) : Option Instr :=
  match nn with
  | 0x9E#8 => some (.skp x)
  | 0xA1#8 => some (.sknp x)
  | _ => none

/-- Family F: the low byte selects the instruction (R53). -/
def decodeMisc (x : Nibble) (nn : Byte) : Option Instr :=
  match nn with
  | 0x07#8 => some (.ldVxDt x)
  | 0x0A#8 => some (.ldVxK x)
  | 0x15#8 => some (.ldDtVx x)
  | 0x18#8 => some (.ldStVx x)
  | 0x1E#8 => some (.addI x)
  | 0x29#8 => some (.ldF x)
  | 0x33#8 => some (.ldB x)
  | 0x55#8 => some (.stRegs x)
  | 0x65#8 => some (.ldRegs x)
  | _ => none

/-- Family 0: all sixteen bits are fixed (R53). -/
def decodeFixed (w : Word) : Option Instr :=
  match w with
  | 0x00E0#16 => some .cls
  | 0x00EE#16 => some .ret
  | _ => none

/-- The instruction a word decodes to, `none` for an unrecognised word (R53, R55, R73: the family digit, then the
family's fixed digits, every fixed digit tested; log 8). -/
def decodeWord (w : Word) : Option Instr :=
  let x := xField w
  let y := yField w
  let n := nField w
  match opField w with
  | 0x0#4 => decodeFixed w
  | 0x1#4 => some (.jp (nnnField w))
  | 0x2#4 => some (.call (nnnField w))
  | 0x3#4 => some (.seImm x (nnField w))
  | 0x4#4 => some (.sneImm x (nnField w))
  | 0x5#4 => if n = 0 then some (.seReg x y) else none
  | 0x6#4 => some (.ldImm x (nnField w))
  | 0x7#4 => some (.addImm x (nnField w))
  | 0x8#4 => decodeAlu x y n
  | 0x9#4 => if n = 0 then some (.sneReg x y) else none
  | 0xA#4 => some (.ldI (nnnField w))
  | 0xB#4 => some (.jpV0 (nnnField w))
  | 0xC#4 => some (.rnd x (nnField w))
  | 0xD#4 => some (.drw x y n)
  | 0xE#4 => decodeKeySkip x (nnField w)
  | 0xF#4 => decodeMisc x (nnField w)
  | _ => none

/-- Why bytes are not an instruction. -/
inductive DecodeError where
  /-- Two bytes are there and their word matches no row (R55). -/
  | unrecognised (w : Word)
  /-- Fewer than two bytes are there (R50: an instruction is always two bytes). -/
  | truncated (present : Nat)
deriving DecidableEq, Repr

/-- The instruction at the head of a list of bytes, and the bytes after it. Total; rejects by name. -/
def decode : List Byte → Except DecodeError (Instr × List Byte)
  | hi :: lo :: rest =>
    match decodeWord (joinBytes hi lo) with
    | some i => .ok (i, rest)
    | none => .error (.unrecognised (joinBytes hi lo))
  | short => .error (.truncated short.length)

/-! ## Encoder -/

/-- The word of an instruction, from the patterns of R53. The ignored `y` digit of `8XY6` and `8XYE` is 0. -/
def encode : Instr → Word
  | .cls => 0x00E0
  | .ret => 0x00EE
  | .jp nnn => packNNN 0x1 nnn
  | .call nnn => packNNN 0x2 nnn
  | .seImm x nn => packXNN 0x3 x nn
  | .sneImm x nn => packXNN 0x4 x nn
  | .seReg x y => packXYN 0x5 x y 0x0
  | .ldImm x nn => packXNN 0x6 x nn
  | .addImm x nn => packXNN 0x7 x nn
  | .ldReg x y => packXYN 0x8 x y 0x0
  | .orReg x y => packXYN 0x8 x y 0x1
  | .andReg x y => packXYN 0x8 x y 0x2
  | .xorReg x y => packXYN 0x8 x y 0x3
  | .addReg x y => packXYN 0x8 x y 0x4
  | .subReg x y => packXYN 0x8 x y 0x5
  | .shr x => packXYN 0x8 x 0x0 0x6
  | .subnReg x y => packXYN 0x8 x y 0x7
  | .shl x => packXYN 0x8 x 0x0 0xE
  | .sneReg x y => packXYN 0x9 x y 0x0
  | .ldI nnn => packNNN 0xA nnn
  | .jpV0 nnn => packNNN 0xB nnn
  | .rnd x nn => packXNN 0xC x nn
  | .drw x y n => packXYN 0xD x y n
  | .skp x => packXNN 0xE x 0x9E
  | .sknp x => packXNN 0xE x 0xA1
  | .ldVxDt x => packXNN 0xF x 0x07
  | .ldVxK x => packXNN 0xF x 0x0A
  | .ldDtVx x => packXNN 0xF x 0x15
  | .ldStVx x => packXNN 0xF x 0x18
  | .addI x => packXNN 0xF x 0x1E
  | .ldF x => packXNN 0xF x 0x29
  | .ldB x => packXNN 0xF x 0x33
  | .stRegs x => packXNN 0xF x 0x55
  | .ldRegs x => packXNN 0xF x 0x65

/-- The two bytes of an instruction as memory holds them, high byte first (R50, 20_memory.md R34). -/
def encodeBytes (i : Instr) : List Byte := [hiByte (encode i), loByte (encode i)]

/-! ## The mask and match columns of the table of R53 -/

/-- One row of R53: a word `w` is in the row when `w &&& mask = value`. -/
structure Row where
  mask : Word
  value : Word
deriving DecidableEq, Repr

/-- The word is in the row. -/
def Row.holds (r : Row) (w : Word) : Bool := w &&& r.mask == r.value

/-- The row of an instruction. -/
def rowOf : Instr → Row
  | .cls => ⟨0xFFFF, 0x00E0⟩
  | .ret => ⟨0xFFFF, 0x00EE⟩
  | .jp _ => ⟨0xF000, 0x1000⟩
  | .call _ => ⟨0xF000, 0x2000⟩
  | .seImm _ _ => ⟨0xF000, 0x3000⟩
  | .sneImm _ _ => ⟨0xF000, 0x4000⟩
  | .seReg _ _ => ⟨0xF00F, 0x5000⟩
  | .ldImm _ _ => ⟨0xF000, 0x6000⟩
  | .addImm _ _ => ⟨0xF000, 0x7000⟩
  | .ldReg _ _ => ⟨0xF00F, 0x8000⟩
  | .orReg _ _ => ⟨0xF00F, 0x8001⟩
  | .andReg _ _ => ⟨0xF00F, 0x8002⟩
  | .xorReg _ _ => ⟨0xF00F, 0x8003⟩
  | .addReg _ _ => ⟨0xF00F, 0x8004⟩
  | .subReg _ _ => ⟨0xF00F, 0x8005⟩
  | .shr _ => ⟨0xF00F, 0x8006⟩
  | .subnReg _ _ => ⟨0xF00F, 0x8007⟩
  | .shl _ => ⟨0xF00F, 0x800E⟩
  | .sneReg _ _ => ⟨0xF00F, 0x9000⟩
  | .ldI _ => ⟨0xF000, 0xA000⟩
  | .jpV0 _ => ⟨0xF000, 0xB000⟩
  | .rnd _ _ => ⟨0xF000, 0xC000⟩
  | .drw _ _ _ => ⟨0xF000, 0xD000⟩
  | .skp _ => ⟨0xF0FF, 0xE09E⟩
  | .sknp _ => ⟨0xF0FF, 0xE0A1⟩
  | .ldVxDt _ => ⟨0xF0FF, 0xF007⟩
  | .ldVxK _ => ⟨0xF0FF, 0xF00A⟩
  | .ldDtVx _ => ⟨0xF0FF, 0xF015⟩
  | .ldStVx _ => ⟨0xF0FF, 0xF018⟩
  | .addI _ => ⟨0xF0FF, 0xF01E⟩
  | .ldF _ => ⟨0xF0FF, 0xF029⟩
  | .ldB _ => ⟨0xF0FF, 0xF033⟩
  | .stRegs _ => ⟨0xF0FF, 0xF055⟩
  | .ldRegs _ => ⟨0xF0FF, 0xF065⟩

/-- All 34 rows, in the order of R53. -/
def rows : List Row :=
  [⟨0xFFFF, 0x00E0⟩, ⟨0xFFFF, 0x00EE⟩, ⟨0xF000, 0x1000⟩, ⟨0xF000, 0x2000⟩, ⟨0xF000, 0x3000⟩] ++
  [⟨0xF000, 0x4000⟩, ⟨0xF00F, 0x5000⟩, ⟨0xF000, 0x6000⟩, ⟨0xF000, 0x7000⟩, ⟨0xF00F, 0x8000⟩] ++
  [⟨0xF00F, 0x8001⟩, ⟨0xF00F, 0x8002⟩, ⟨0xF00F, 0x8003⟩, ⟨0xF00F, 0x8004⟩, ⟨0xF00F, 0x8005⟩] ++
  [⟨0xF00F, 0x8006⟩, ⟨0xF00F, 0x8007⟩, ⟨0xF00F, 0x800E⟩, ⟨0xF00F, 0x9000⟩, ⟨0xF000, 0xA000⟩] ++
  [⟨0xF000, 0xB000⟩, ⟨0xF000, 0xC000⟩, ⟨0xF000, 0xD000⟩, ⟨0xF0FF, 0xE09E⟩, ⟨0xF0FF, 0xE0A1⟩] ++
  [⟨0xF0FF, 0xF007⟩, ⟨0xF0FF, 0xF00A⟩, ⟨0xF0FF, 0xF015⟩, ⟨0xF0FF, 0xF018⟩, ⟨0xF0FF, 0xF01E⟩] ++
  [⟨0xF0FF, 0xF029⟩, ⟨0xF0FF, 0xF033⟩, ⟨0xF0FF, 0xF055⟩, ⟨0xF0FF, 0xF065⟩]

/-! ## The host's question: the table's numbering -/

/-- The bytes of an instruction whose bits are `w` as spec/opcode_table.json numbers them, the bits above `nbits`
zero: one 16-bit word, high byte first. -/
def tableWordBytes (nbits w : Nat) : List Byte :=
  let word : Word := BitVec.ofNat 16 (w % 2 ^ nbits)
  [hiByte word, loByte word]

/-- The instruction the decoder reads from an instruction word of the opcode table. -/
def decodeTableWord (nbits w : Nat) : Option Instr :=
  match decode (tableWordBytes nbits w) with
  | .ok (i, _) => some i
  | .error _ => none

end Sys2Proof
end

