-- ==== Sys2Proof/Config.lean ====
section
/-! DEFINITION. What is fixed for the machine (the parameter table of 00_scope.md section 6) and the one free
value, the random byte. -/

namespace Sys2Proof.Config

/-- MEM_SIZE: addresses 0x000 to 0xFFF (10_state.md R18). -/
def memSize : Nat := 0x1000

/-- PROG_BASE, also the reset value of PC (20_memory.md R30, 10_state.md R25). -/
def progBase : Nat := 0x200

/-- FONT_BASE (90_conflicts.md C1, 43_index_memory.md R112). -/
def fontBase : Nat := 0x050

/-- FONT_GLYPH_BYTES (43_index_memory.md R112). -/
def glyphBytes : Nat := 5

/-- ROM_MAX: the longest program `load_program` accepts (20_memory.md R43). -/
def romMax : Nat := 3584

/-- FONT[0..79], the default table of 10_state.md R26, glyph by glyph, top row first.
PRESUMED (the spec takes the bytes from general knowledge, decision D13; log 2): unsafe for claims about the
pixels or the bytes of a glyph, irrelevant to every other claim. -/
def font : List Byte :=
  [0xF0, 0x90, 0x90, 0x90, 0xF0] ++ [0x20, 0x60, 0x20, 0x20, 0x70] ++
  [0xF0, 0x10, 0xF0, 0x80, 0xF0] ++ [0xF0, 0x10, 0xF0, 0x10, 0xF0] ++
  [0x90, 0x90, 0xF0, 0x10, 0x10] ++ [0xF0, 0x80, 0xF0, 0x10, 0xF0] ++
  [0xF0, 0x80, 0xF0, 0x90, 0xF0] ++ [0xF0, 0x10, 0x20, 0x40, 0x40] ++
  [0xF0, 0x90, 0xF0, 0x90, 0xF0] ++ [0xF0, 0x90, 0xF0, 0x10, 0xF0] ++
  [0xF0, 0x90, 0xF0, 0x90, 0x90] ++ [0xE0, 0x90, 0xE0, 0x90, 0xE0] ++
  [0xF0, 0x80, 0x80, 0x80, 0xF0] ++ [0xE0, 0x90, 0x90, 0x90, 0xE0] ++
  [0xF0, 0x80, 0xF0, 0x80, 0xF0] ++ [0xF0, 0x80, 0xF0, 0x80, 0x80]

/-- THE FREE VALUE: the byte of the k-th random draw. It stands for the step input `rnd` (42_alu.md R105:
a draw; a claim must hold for every value). It has no body, so nothing can prove a value of it (log 1). -/
opaque rndByte : Nat → Byte

end Sys2Proof.Config
end

