-- ==== Sys2Proof/Machine/State.lean ====
section
/-! DEFINITION. The state of the core (10_state.md R10 to R23), its reset (R25), its faults (60_exceptions.md R141,
R143), its output events (00_scope.md R6) and the host-side conditions. -/

namespace Sys2Proof.Machine

/-- MEM as plain data: the bytes that differ from the reset contents (`Memory.base`), addresses strictly rising
(log 3). -/
abbrev Memory := List Host.Cell

/-- FB: 32 rows of 64 one-bit pixels; bit `x` of row `y` is FB[x, y] (10_state.md R19; log 11). -/
abbrev Framebuffer := Vector (BitVec 64) 32

/-- Everything the spec gives the core, and `draws`, the model's own count of random draws (log 1). -/
structure State where
  /-- V[0] .. V[15]; V[15] is VF (R10, R11). -/
  v : Vector Byte 16
  /-- The index register I (R15). -/
  i : Word
  /-- The program counter (R13, R14). -/
  pc : Word
  /-- The stack pointer, 0 to 16: the number of entries in use (R16, R17; log 19). -/
  sp : Fin 17
  /-- STACK[0] .. STACK[15] (R16). -/
  stack : Vector Word 16
  /-- MEM (R18). -/
  mem : Memory
  /-- The framebuffer (R19). -/
  fb : Framebuffer
  /-- The redraw flag RF (R20). -/
  rf : Bool
  /-- The delay timer DT (R21). -/
  dt : Byte
  /-- The sound timer ST (R21). -/
  st : Byte
  /-- The key state K[0] .. K[15]; true is pressed (R22). -/
  keys : Vector Bool 16
  /-- The model's own: how many random bytes have been drawn. DESIGN CHOICE (log 1). -/
  draws : Nat
deriving DecidableEq, Repr

/-- Reset values of R25; MEM lists nothing because unlisted addresses read as the reset contents. -/
def State.reset : State where
  v := Vector.replicate 16 0
  i := 0
  pc := BitVec.ofNat 16 Config.progBase
  sp := 0
  stack := Vector.replicate 16 0
  mem := []
  fb := Vector.replicate 32 0
  rf := false
  dt := 0
  st := 0
  keys := Vector.replicate 16 false
  draws := 0

/-- The model faults of 60_exceptions.md R141. A faulting step has no successor state (R143, R144). Each is the
spec's treatment of behaviour the source calls undefined or leaves to the caller: safe (log 7). -/
inductive Fault where
  /-- The fetch with PC > 0xFFE; `DXYN`, `FX33`, `FX55`, `FX65` touching an address above 0xFFF. Holds the first
  offending address. Safe. -/
  | memRange (addr : Nat)
  /-- `2NNN` with SP = 16. Holds SP. Safe. -/
  | stackOverflow (sp : Nat)
  /-- `00EE` with SP = 0. Holds SP. Safe. -/
  | stackUnderflow (sp : Nat)
  /-- `EX9E`, `EXA1` with V[x] > 15. Holds V[x]. Safe. -/
  | keyIndexRange (index : Nat)
deriving DecidableEq, Repr

/-- Refusals. The machine has none to raise: every instruction has its meaning (40_step_cycle.md R71). -/
inductive Refusal where
  /-- An instruction without a meaning in the model; raised by no arm of `exec`. Safe. -/
  | notModelled (mnemonic : String)
deriving DecidableEq, Repr

/-- The output events of one step; they belong to that step and are not state (00_scope.md R6, 10_state.md R23). -/
inductive Event where
  /-- ST went from 1 to 0 in this step (60_exceptions.md R152). -/
  | toneStart
  /-- The step fetched an unrecognised word, from this address (40_step_cycle.md R68). -/
  | unknownOpcode (word addr : Word)
deriving DecidableEq, Repr

/-- Every condition the core or its loader can meet (60_exceptions.md R141). -/
inductive Condition where
  /-- Non-fatal, signalled by a step (R142). -/
  | unknownOpcode (word addr : Word)
  /-- Reported by `load_program`, nothing loaded (R146). Holds the length. -/
  | romTooLarge (length : Nat)
  /-- The host's file system's; the core never meets it (R147). -/
  | ioError
  /-- A model fault (R143). -/
  | modelFault (f : Fault)
deriving DecidableEq, Repr

end Sys2Proof.Machine
end

