-- ==== Sys2Proof/Machine/Ops.lean ====
section
/-! DEFINITION. The named operations over memory, registers, stack, framebuffer, keys, timers and the free value.
The spec describes no exception entry and no return from one (60_exceptions.md R140, R149): what a step can raise
is a model fault, through `faultOr`, always before anything is written (R144). -/

namespace Sys2Proof.Machine

/-! ## Memory (20_memory.md) -/

/-- What an unlisted address reads as: the reset contents, FONT[j] at 0x050 + j and zero elsewhere
(10_state.md R25). -/
def Memory.base (a : Nat) : Byte :=
  if Config.fontBase ≤ a then Config.font.getD (a - Config.fontBase) 0 else 0

/-- The byte MEM[a] (R32). -/
def Memory.read : Memory → Nat → Byte
  | [], a => Memory.base a
  | (b, w) :: m, a => if a = b then w else Memory.read m a

/-- Insert a cell into a list sorted by address. -/
def Memory.insert : Memory → Nat → Byte → Memory
  | [], a, w => [(a, w)]
  | (b, u) :: m, a, w => if a < b then (a, w) :: (b, u) :: m else (b, u) :: Memory.insert m a w

/-- MEM[a] <- w (R32). A byte equal to what an unlisted address reads as is not listed. -/
def Memory.write (m : Memory) (a : Nat) (w : Byte) : Memory :=
  let rest := m.filter (fun c => c.1 ≠ a)
  if w = Memory.base a then rest else Memory.insert rest a w

/-- Bytes written at `a`, `a + 1`, …, in that order (R32). -/
def Memory.writeList : Memory → Nat → List Byte → Memory
  | m, _, [] => m
  | m, a, w :: ws => Memory.writeList (Memory.write m a w) (a + 1) ws

/-- The canonical form: addresses strictly rising, every one in 0x000..0xFFF, no cell equal to the reset contents. -/
abbrev Memory.wf (m : Memory) : Prop :=
  m.Pairwise (fun c d => c.1 < d.1) ∧ ∀ c ∈ m, c.1 < Config.memSize ∧ c.2 ≠ Memory.base c.1

/-- The fault of an access to `cnt` bytes from `a`: the first address above 0xFFF, none when all are in MEM.
Addresses are not wrapped (R33, R37, 43_index_memory.md R117). -/
def rangeFault (a cnt : Nat) : Option Fault :=
  if cnt = 0 ∨ a + cnt ≤ Config.memSize then none else some (.memRange (max a Config.memSize))

/-- Raise the fault, if there is one; otherwise the step goes on with `t` (60_exceptions.md R143, R144). -/
def faultOr (f : Option Fault) (t : State) : Host.Outcome State Fault Refusal :=
  match f with
  | some f => .fault f
  | none => .next t

/-! ## Registers -/

/-- V[x] (10_state.md R10). -/
def getV (s : State) (x : Nibble) : Byte := s.v.get x.toFin

/-- V[x] <- b. -/
def setV (s : State) (x : Nibble) (b : Byte) : State := { s with v := s.v.set x.toNat b x.isLt }

/-- VF <- 1 or 0 (10_state.md R11). -/
def setFlag (s : State) (f : Bool) : State := setV s 0xF#4 (if f then 1 else 0)

/-- The result, then the flag: the flag is written last, so VF holds the flag when x = F (00_scope.md R7,
42_alu.md R103; log 5). -/
def setVFlag (s : State) (x : Nibble) (r : Byte × Bool) : State := setFlag (setV s x r.1) r.2

/-- V[0] .. V[cnt - 1], lowest index first. -/
def regList (s : State) (cnt : Nat) : List Byte := s.v.toList.take cnt

/-- V[k] <- MEM[I + k] for every k below `cnt`; the other registers keep their values. -/
def loadRegs (s : State) (cnt : Nat) : State :=
  { s with v := Vector.ofFn fun k =>
      if k.val < cnt then Memory.read s.mem (s.i.toNat + k.val) else s.v.get k }

/-! ## Program counter and stack -/

/-- PC <- (PC + 2) mod 65536: the advance before dispatch (40_step_cycle.md R67), and a taken skip
(41_control_flow.md R84). -/
def advance (s : State) : State := { s with pc := s.pc + 2 }

/-- PC <- (PC - 2) mod 65536: back to the instruction's own address (45_keys_timers.md R132). -/
def rewind (s : State) : State := { s with pc := s.pc - 2 }

/-- PC <- target, whole and unmasked (41_control_flow.md R75). -/
def jumpTo (s : State) (target : Word) : State := { s with pc := target }

/-- A skip: 2 more when the condition holds (41_control_flow.md R75). -/
def skipIf (c : Bool) (s : State) : State := if c then advance s else s

/-- `2NNN` with all 16 entries in use (41_control_flow.md R77). -/
def pushFault (s : State) : Option Fault := if s.sp.val = 16 then some (.stackOverflow s.sp.val) else none

/-- STACK[SP] <- PC; SP <- SP + 1 (41_control_flow.md R77). -/
def pushPc (s : State) : State :=
  { s with stack := s.stack.setIfInBounds s.sp.val s.pc, sp := Fin.ofNat 17 (s.sp.val + 1) }

/-- `00EE` with no entry in use (41_control_flow.md R78). -/
def popFault (s : State) : Option Fault := if s.sp.val = 0 then some (.stackUnderflow s.sp.val) else none

/-- SP <- SP - 1; PC <- STACK[SP]; the entry keeps its value (41_control_flow.md R78, 10_state.md R17). -/
def popPc (s : State) : State :=
  { s with sp := Fin.ofNat 17 (s.sp.val - 1), pc := s.stack[s.sp.val - 1] }

/-! ## Framebuffer -/

/-- FB[x, y] (10_state.md R19). -/
def pixel (fb : Framebuffer) (x : Fin 64) (y : Fin 32) : Bool := (fb.get y).getLsbD x.val

/-- FB[x, y] <- FB[x, y] ^ 1. -/
def togglePixel (fb : Framebuffer) (x : Fin 64) (y : Fin 32) : Framebuffer :=
  fb.set y.val (fb.get y ^^^ BitVec.twoPow 64 x.val)

/-- Every pixel 0. -/
def clearedFb : Framebuffer := Vector.replicate 32 0

/-! ## Keys -/

/-- K[k] (10_state.md R22). -/
def keyDown (s : State) (k : Nat) : Bool := s.keys.toList.getD k false

/-- The fault of a key index above 15 (45_keys_timers.md R130). -/
def keyFault (k : Byte) : Option Fault := if 15 < k.toNat then some (.keyIndexRange k.toNat) else none

/-- The lowest pressed key (45_keys_timers.md R132). -/
def lowestKey (s : State) : Option Nat := (List.range 16).find? (keyDown s)

/-! ## The random byte (42_alu.md R105; log 1) -/

/-- The byte of this draw: the free value. -/
def rndOf (s : State) : Byte := Config.rndByte s.draws

/-- One draw has been made. -/
def countDraw (s : State) : State := { s with draws := s.draws + 1 }

/-! ## The tick (60_exceptions.md R150, R151) -/

/-- One countdown: a timer above 0 loses 1, a timer at 0 stays. -/
def countDown (t : Byte) : Byte := if t = 0 then 0 else t - 1

/-- Both timers after the tick. -/
def tick (s : State) : State := { s with dt := countDown s.dt, st := countDown s.st }

/-- The event of the tick: ST is 1 at the moment of decrement (R151, R152; log 22). -/
def tickEvents (s : State) : List Event := if s.st = 1 then [.toneStart] else []

/-! ## Fetch (20_memory.md R34, 40_step_cycle.md R66) -/

/-- The fetch touches the two bytes at PC, without wrap. -/
def fetchFault (s : State) : Option Fault := rangeFault s.pc.toNat 2

/-- The two bytes at PC, PC + 1. -/
def fetchBytes (s : State) : List Byte :=
  [Memory.read s.mem s.pc.toNat, Memory.read s.mem (s.pc.toNat + 1)]

/-- The fetched word, the byte at the lower address high. -/
def fetchWord (s : State) : Word :=
  joinBytes (Memory.read s.mem s.pc.toNat) (Memory.read s.mem (s.pc.toNat + 1))

/-- The state with these bytes where the next step fetches; unchanged when PC leaves no room for a fetch. -/
def placeAtPc (s : State) (bytes : List Byte) : State :=
  match fetchFault s with
  | some _ => s
  | none => { s with mem := Memory.writeList s.mem s.pc.toNat bytes }

end Sys2Proof.Machine
end

