-- ==== Sys2Proof/Machine/Operands.lean ====
section
/-! DEFINITION. The operand forms (30_encoding.md R52): registers are read by `getV`, `nn` is used as it is, `nnn` is
zero-extended, `n` and the upper register index are counts, an effective address is I + k on naturals. -/

namespace Sys2Proof.Machine

/-- `nnn`, zero-extended to 16 bits, never scaled (R52). -/
def addrOperand (nnn : Addr12) : Word := nnn.zeroExtend 16

/-- `nnn` + V[0], not reduced to 12 bits (41_control_flow.md R79). -/
def addrPlusV0 (nnn : Addr12) (s : State) : Word := addrOperand nnn + (getV s 0).zeroExtend 16

/-- The address of the first byte a memory instruction touches: I, as a natural (20_memory.md R37). -/
def effAddr (s : State) : Nat := s.i.toNat

/-- How many registers `FX55` and `FX65` move: the index x is inclusive (43_index_memory.md R114). -/
def regCount (x : Nibble) : Nat := x.toNat + 1

/-- The address of the glyph of the low digit of `b`: 0x050 + (b & 0x0F) * 5 (43_index_memory.md R112). -/
def glyphAddr (b : Byte) : Word :=
  BitVec.ofNat 16 (Config.fontBase + (b &&& 0x0F).toNat * Config.glyphBytes)

/-- The three decimal digits of `b`: hundreds, tens, ones (43_index_memory.md R113). -/
def bcdDigits (b : Byte) : List Byte :=
  [BitVec.ofNat 8 (b.toNat / 100), BitVec.ofNat 8 (b.toNat / 10 % 10), BitVec.ofNat 8 (b.toNat % 10)]

end Sys2Proof.Machine
end

