-- ==== Sys2Proof/Machine/Flags.lean ====
section
/-! DEFINITION. Every computation of a result and its flag (10_state.md R12, 42_alu.md R96 to R102): the exact result
on naturals, the flag from the operands, the result narrowed at the end. -/

namespace Sys2Proof.Machine

/-- `8XY4`: the sum mod 256 and the carry, 1 when the sum is above 255 (R96). -/
def addCarry (a b : Byte) : Byte × Bool :=
  (BitVec.ofNat 8 (a.toNat + b.toNat), decide (255 < a.toNat + b.toNat))

/-- `8XY5` and, with the operands exchanged, `8XY7`: a - b mod 256 and 1 when there is no borrow (R97, R99). -/
def subBorrow (a b : Byte) : Byte × Bool :=
  (BitVec.ofNat 8 (a.toNat + 256 - b.toNat), decide (b.toNat ≤ a.toNat))

/-- `8XY6`: a shifted right by one and the bit that leaves, bit 0 (R98). -/
def shiftRight (a : Byte) : Byte × Bool := (a >>> 1, a.getLsbD 0)

/-- `8XYE`: a shifted left by one and the bit that leaves, bit 7 (R100). -/
def shiftLeft (a : Byte) : Byte × Bool := (a <<< 1, a.getLsbD 7)

/-- `FX1E`: the sum mod 65536 and 1 when the untruncated sum is above 0xFFF (43_index_memory.md R111). -/
def addIndex (i : Word) (a : Byte) : Word × Bool :=
  (BitVec.ofNat 16 (i.toNat + a.toNat), decide (0xFFF < i.toNat + a.toNat))

end Sys2Proof.Machine
end

