-- ==== Sys2Proof/Machine/Alu.lean ====
section
/-! DEFINITION. Register file and ALU (42_alu.md): `6XNN` `7XNN` `8XY0` to `8XY7` `8XYE` `CXNN`. Operands are read
before any write (00_scope.md R7). -/

namespace Sys2Proof.Machine

/-- `6XNN` (R90) -/
def execLdImm (x : Nibble) (nn : Byte) (s : State) : Host.Outcome State Fault Refusal :=
  .next (setV s x nn)

/-- `7XNN`: no flag (R91) -/
def execAddImm (x : Nibble) (nn : Byte) (s : State) : Host.Outcome State Fault Refusal :=
  .next (setV s x (addCarry (getV s x) nn).1)

/-- `8XY0` (R92) -/
def execLdReg (x y : Nibble) (s : State) : Host.Outcome State Fault Refusal :=
  .next (setV s x (getV s y))

/-- `8XY1`: no flag (R93) -/
def execOrReg (x y : Nibble) (s : State) : Host.Outcome State Fault Refusal :=
  .next (setV s x (getV s x ||| getV s y))

/-- `8XY2`: no flag (R94) -/
def execAndReg (x y : Nibble) (s : State) : Host.Outcome State Fault Refusal :=
  .next (setV s x (getV s x &&& getV s y))

/-- `8XY3`: no flag (R95) -/
def execXorReg (x y : Nibble) (s : State) : Host.Outcome State Fault Refusal :=
  .next (setV s x (getV s x ^^^ getV s y))

/-- `8XY4` (R96) -/
def execAddReg (x y : Nibble) (s : State) : Host.Outcome State Fault Refusal :=
  .next (setVFlag s x (addCarry (getV s x) (getV s y)))

/-- `8XY5` (R97) -/
def execSubReg (x y : Nibble) (s : State) : Host.Outcome State Fault Refusal :=
  .next (setVFlag s x (subBorrow (getV s x) (getV s y)))

/-- `8XY6`: V[x] shifted, y ignored (R98) -/
def execShr (x : Nibble) (s : State) : Host.Outcome State Fault Refusal :=
  .next (setVFlag s x (shiftRight (getV s x)))

/-- `8XY7` (R99) -/
def execSubnReg (x y : Nibble) (s : State) : Host.Outcome State Fault Refusal :=
  .next (setVFlag s x (subBorrow (getV s y) (getV s x)))

/-- `8XYE`: V[x] shifted, y ignored (R100) -/
def execShl (x : Nibble) (s : State) : Host.Outcome State Fault Refusal :=
  .next (setVFlag s x (shiftLeft (getV s x)))

/-- The effect of `CXNN` for a given random byte (R105). -/
def rndWith (r : Byte) (x : Nibble) (nn : Byte) (s : State) : State := setV s x (r &&& nn)

/-- `CXNN`: the random byte is the free value of this draw (R105; log 1) -/
def execRnd (x : Nibble) (nn : Byte) (s : State) : Host.Outcome State Fault Refusal :=
  .next (countDraw (rndWith (rndOf s) x nn s))

end Sys2Proof.Machine
end

