-- ==== Sys2Proof/Machine/ControlFlow.lean ====
section
/-! DEFINITION. Control transfer (41_control_flow.md): `00EE` `1NNN` `2NNN` `BNNN` and the four register skips. In
every meaning PC is the advanced value, instruction address + 2 (40_step_cycle.md R67). -/

namespace Sys2Proof.Machine

/-- `1NNN` (R76) -/
def execJp (nnn : Addr12) (s : State) : Host.Outcome State Fault Refusal :=
  .next (jumpTo s (addrOperand nnn))

/-- `BNNN` (R79) -/
def execJpV0 (nnn : Addr12) (s : State) : Host.Outcome State Fault Refusal :=
  .next (jumpTo s (addrPlusV0 nnn s))

/-- `2NNN` (R77) -/
def execCall (nnn : Addr12) (s : State) : Host.Outcome State Fault Refusal :=
  faultOr (pushFault s) (jumpTo (pushPc s) (addrOperand nnn))

/-- `00EE` (R78) -/
def execRet (s : State) : Host.Outcome State Fault Refusal :=
  faultOr (popFault s) (popPc s)

/-- `3XNN` (R80) -/
def execSeImm (x : Nibble) (nn : Byte) (s : State) : Host.Outcome State Fault Refusal :=
  .next (skipIf (getV s x == nn) s)

/-- `4XNN` (R81) -/
def execSneImm (x : Nibble) (nn : Byte) (s : State) : Host.Outcome State Fault Refusal :=
  .next (skipIf (getV s x != nn) s)

/-- `5XY0` (R82) -/
def execSeReg (x y : Nibble) (s : State) : Host.Outcome State Fault Refusal :=
  .next (skipIf (getV s x == getV s y) s)

/-- `9XY0` (R83) -/
def execSneReg (x y : Nibble) (s : State) : Host.Outcome State Fault Refusal :=
  .next (skipIf (getV s x != getV s y) s)

end Sys2Proof.Machine
end

