-- ==== Sys2Proof/Machine/Display.lean ====
section
/-! DEFINITION. Framebuffer and XOR sprite engine (44_display.md): `00E0` `DXYN`. -/

namespace Sys2Proof.Machine

/-- The framebuffer while a sprite is drawn, and whether a set pixel has been cleared so far (R122, R125). -/
structure Canvas where
  fb : Framebuffer
  collision : Bool
deriving DecidableEq, Repr

/-- XOR a set sprite bit into the pixel (px, py) (R122). -/
def plot (c : Canvas) (px : Fin 64) (py : Fin 32) : Canvas :=
  { fb := togglePixel c.fb px py, collision := c.collision || pixel c.fb px py }

/-- One sprite row at row `y`, left edge `cx`: bit 7 is the leftmost pixel; coordinates wrap (R120, R122, R123;
log 10). -/
def drawRow (b : Byte) (cx y : Nat) (c : Canvas) : Canvas :=
  (List.range 8).foldl
    (fun c col => if b.getLsbD (7 - col) then plot c (Fin.ofNat 64 (cx + col)) (Fin.ofNat 32 y) else c) c

/-- `n` sprite rows from address `a`, top row first, top left at (cx, cy) (R122, R123). -/
def drawSprite (m : Memory) (a cx cy n : Nat) (c : Canvas) : Canvas :=
  (List.range n).foldl (fun c row => drawRow (Memory.read m (a + row)) cx (cy + row) c) c

/-- `00E0`: VF is not written (R121) -/
def execCls (s : State) : Host.Outcome State Fault Refusal :=
  .next { s with fb := clearedFb, rf := true }

/-- `DXYN`: coordinates are read before VF is written (R122; log 6) -/
def execDrw (x y n : Nibble) (s : State) : Host.Outcome State Fault Refusal :=
  let c := drawSprite s.mem (effAddr s) (getV s x).toNat (getV s y).toNat n.toNat
    { fb := s.fb, collision := false }
  faultOr (rangeFault (effAddr s) n.toNat) (setFlag { s with fb := c.fb, rf := true } c.collision)

end Sys2Proof.Machine
end

