-- ==== Sys2Proof/Machine/Index.lean ====
section
/-! DEFINITION. Index register and memory (43_index_memory.md): `ANNN` `FX1E` `FX29` `FX33` `FX55` `FX65`. The three
memory instructions leave I as it was (R116) and check their whole range before the first write (R117). -/

namespace Sys2Proof.Machine

/-- `ANNN` (R110) -/
def execLdI (nnn : Addr12) (s : State) : Host.Outcome State Fault Refusal :=
  .next { s with i := addrOperand nnn }

/-- `FX1E`: VF is written last (R111) -/
def execAddI (x : Nibble) (s : State) : Host.Outcome State Fault Refusal :=
  let r := addIndex s.i (getV s x)
  .next (setFlag { s with i := r.1 } r.2)

/-- `FX29` (R112) -/
def execLdF (x : Nibble) (s : State) : Host.Outcome State Fault Refusal :=
  .next { s with i := glyphAddr (getV s x) }

/-- `FX33` (R113) -/
def execLdB (x : Nibble) (s : State) : Host.Outcome State Fault Refusal :=
  faultOr (rangeFault (effAddr s) 3)
    { s with mem := Memory.writeList s.mem (effAddr s) (bcdDigits (getV s x)) }

/-- `FX55` (R114) -/
def execStRegs (x : Nibble) (s : State) : Host.Outcome State Fault Refusal :=
  faultOr (rangeFault (effAddr s) (regCount x))
    { s with mem := Memory.writeList s.mem (effAddr s) (regList s (regCount x)) }

/-- `FX65` (R115) -/
def execLdRegs (x : Nibble) (s : State) : Host.Outcome State Fault Refusal :=
  faultOr (rangeFault (effAddr s) (regCount x)) (loadRegs s (regCount x))

end Sys2Proof.Machine
end

