-- ==== Sys2Proof/Machine/KeysTimers.lean ====
section
/-! DEFINITION. Keypad and timer access (45_keys_timers.md): `EX9E` `EXA1` `FX0A` `FX07` `FX15` `FX18`. The tick
follows each in the same step (40_step_cycle.md R69). -/

namespace Sys2Proof.Machine

/-- `EX9E` (R130) -/
def execSkp (x : Nibble) (s : State) : Host.Outcome State Fault Refusal :=
  faultOr (keyFault (getV s x)) (skipIf (keyDown s (getV s x).toNat) s)

/-- `EXA1` (R131) -/
def execSknp (x : Nibble) (s : State) : Host.Outcome State Fault Refusal :=
  faultOr (keyFault (getV s x)) (skipIf (!keyDown s (getV s x).toNat) s)

/-- `FX0A`: the lowest pressed key into V[x], or back to this instruction (R132) -/
def execLdVxK (x : Nibble) (s : State) : Host.Outcome State Fault Refusal :=
  match lowestKey s with
  | some k => .next (setV s x (BitVec.ofNat 8 k))
  | none => .next (rewind s)

/-- `FX07`: DT before this step's tick (R133) -/
def execLdVxDt (x : Nibble) (s : State) : Host.Outcome State Fault Refusal :=
  .next (setV s x s.dt)

/-- `FX15` (R134) -/
def execLdDtVx (x : Nibble) (s : State) : Host.Outcome State Fault Refusal :=
  .next { s with dt := getV s x }

/-- `FX18` (R135) -/
def execLdStVx (x : Nibble) (s : State) : Host.Outcome State Fault Refusal :=
  .next { s with st := getV s x }

end Sys2Proof.Machine
end

