-- ==== Sys2Proof/Machine/Cycle.lean ====
section
/-! DEFINITION. One step with its output events (40_step_cycle.md R65 to R69): fetch, PC advance, decode and execute,
tick. `step` (Step.lean) is this with the events left off. -/

namespace Sys2Proof.Machine

/-- The end of a step whose execute phase left `s` and emitted `ev`: the tick and its event (R69). -/
def finish (s : State) (ev : List Event) : State × List Event := (tick s, ev ++ tickEvents s)

/-- The tick after an execute phase; a fault has no successor state and no events (60_exceptions.md R144). -/
def finishOutcome : Host.Outcome State Fault Refusal → Host.Outcome (State × List Event) Fault Refusal
  | .next t => .next (finish t [])
  | .fault f => .fault f
  | .refused r => .refused r

/-- The execute phase of an unrecognised word: nothing changes, the diagnostic is emitted (R68). `s` is the state
after the PC advance. -/
def unknownEvents (w : Word) (s : State) : List Event := [.unknownOpcode w (s.pc - 2)]

/-- Decode and execute the fetched bytes in the state after the PC advance, then tick (R65). -/
def dispatchBytes (bytes : List Byte) (w : Word) (s : State) : Host.Outcome (State × List Event) Fault Refusal :=
  match decode bytes with
  | .ok (i, _) => finishOutcome (exec i s)
  | .error _ => .next (finish s (unknownEvents w s))

/-- One step: the successor state and the events of that step, or a model fault (R65, R71). -/
def cycle (s : State) : Host.Outcome (State × List Event) Fault Refusal :=
  match fetchFault s with
  | some f => .fault f
  | none => dispatchBytes (fetchBytes s) (fetchWord s) (advance s)

/-- The state of an outcome, its events left off. -/
def dropEvents : Host.Outcome (State × List Event) Fault Refusal → Host.Outcome State Fault Refusal
  | .next (t, _) => .next t
  | .fault f => .fault f
  | .refused r => .refused r

/-- The events of the step taken from `s`; none when it faults (00_scope.md R6, 60_exceptions.md R144). -/
def stepEvents (s : State) : List Event :=
  match cycle s with
  | .next (_, ev) => ev
  | .fault _ => []
  | .refused _ => []

end Sys2Proof.Machine
end

