-- ==== Sys2Proof/Machine/Step.lean ====
section
/-! DEFINITION. The step, and the placing of an instruction where the next step fetches. -/

namespace Sys2Proof.Machine

/-- One step of the core (40_step_cycle.md R65). -/
def step (s : State) : Host.Outcome State Fault Refusal := dropEvents (cycle s)

/-- `s` with the instruction word `w` (numbered as the opcode table numbers it) in memory at PC, where the next step
fetches (log 18). -/
def State.withFetchWord (s : State) (nbits w : Nat) : State := placeAtPc s (tableWordBytes nbits w)

end Sys2Proof.Machine
end

