-- ==== Sys2Proof/Machine/HostActions.lean ====
section
/-! DEFINITION. The host's actions of 00_scope.md R5 other than `step`, taken between steps, and the condition codes of
60_exceptions.md R141 (log 17). The host does nothing else to the state. -/

namespace Sys2Proof.Machine

/-- `reset`: every element at its reset value, from any state, faulted or not (70_reset_and_hazards.md R165). The
model's own count of draws goes on, so that no byte is drawn twice (log 1). -/
def hostReset (s : State) : State := { State.reset with draws := s.draws }

/-- `load_program(bytes)`: at most 3584 bytes, to 0x200 upward, nothing else; or `RomTooLarge` and nothing written
(20_memory.md R43, R44). -/
def loadProgram (bytes : List Byte) (s : State) : Except Condition State :=
  if Config.romMax < bytes.length then .error (.romTooLarge bytes.length)
  else .ok { s with mem := Memory.writeList s.mem Config.progBase bytes }

/-- `set_key(k, b)`: K[k] <- b. -/
def setKey (k : Fin 16) (b : Bool) (s : State) : State := { s with keys := s.keys.set k.val b }

/-- `read_pixel(x, y)`: FB[x, y]. -/
def readPixel (s : State) (x : Fin 64) (y : Fin 32) : Bool := pixel s.fb x y

/-- `read_redraw`: RF. -/
def readRedraw (s : State) : Bool := s.rf

/-- `clear_redraw`: RF <- 0. -/
def clearRedraw (s : State) : State := { s with rf := false }

/-- `read_sound_active`: ST != 0 (60_exceptions.md R152). -/
def soundActive (s : State) : Bool := s.st != 0

/-- The numeric code of a condition (60_exceptions.md R141). -/
def conditionCode : Condition → Nat
  | .unknownOpcode _ _ => 1
  | .romTooLarge _ => 2
  | .ioError => 3
  | .modelFault (.memRange _) => 16
  | .modelFault (.stackOverflow _) => 17
  | .modelFault (.stackUnderflow _) => 18
  | .modelFault (.keyIndexRange _) => 19

end Sys2Proof.Machine
end

