-- ==== Sys2Proof/Safety.lean ====
section
/-! DEFINITION. What a safe step is (the duties of 70_reset_and_hazards.md R169), which state each instruction may write
(the access table of 10_state.md R27), and the invariants, in the terms the statements use. -/

namespace Sys2Proof.Machine

/-! ## Duties -/

/-- PC leaves room for a fetch: PC <= 0xFFE (20_memory.md R34). -/
abbrev Fetchable (s : State) : Prop := s.pc.toNat ≤ 0xFFE

/-- How many bytes from I the instruction touches (43_index_memory.md R117). -/
def touchCount : Instr → Nat
  | .ldB _ => 3
  | .stRegs x | .ldRegs x => x.toNat + 1
  | .drw _ _ n => n.toNat
  | .cls | .ret | .jp _ | .call _ | .seImm _ _ | .sneImm _ _ | .seReg _ _ | .ldImm _ _ | .addImm _ _
  | .ldReg _ _ | .orReg _ _ | .andReg _ _ | .xorReg _ _ | .addReg _ _ | .subReg _ _ | .shr _
  | .subnReg _ _ | .shl _ | .sneReg _ _ | .ldI _ | .jpV0 _ | .rnd _ _ | .skp _ | .sknp _
  | .ldVxDt _ | .ldVxK _ | .ldDtVx _ | .ldStVx _ | .addI _ | .ldF _ => 0

/-- The bytes the instruction touches are in MEM (43_index_memory.md R117). -/
abbrev InMemory (a cnt : Nat) : Prop := cnt = 0 ∨ a + cnt ≤ 0x1000

/-- The program's duty for the instruction (R169): no call with a full stack, no return with an empty one, memory
accesses inside MEM, key indices at most 15. -/
def Duty (i : Instr) (s : State) : Prop :=
  InMemory s.i.toNat (touchCount i) ∧
  ((∃ nnn, i = .call nnn) → s.sp.val ≠ 16) ∧
  (i = .ret → s.sp.val ≠ 0) ∧
  (∀ x, i = .skp x ∨ i = .sknp x → (getV s x).toNat ≤ 15)

/-- The step from `s` meets every duty (R169). An unrecognised word has none. -/
def SafeStep (s : State) : Prop := Fetchable s ∧ ∀ i, decodeWord (fetchWord s) = some i → Duty i s

/-- `b` is the first of the `cnt` addresses from `a` that exceeds 0xFFF: the one a `MemRange` fault reports
(20_memory.md R33). -/
def FirstOutside (a cnt b : Nat) : Prop :=
  a ≤ b ∧ b < a + cnt ∧ 0xFFF < b ∧ ∀ c, a ≤ c → c < b → c ≤ 0xFFF

/-! ## What an instruction may write (R27) -/

/-- The instruction may write V[z]: `w` and `wf` of the V column. -/
def writesV : Instr → Nibble → Bool
  | .ldImm x _, z | .addImm x _, z | .ldReg x _, z | .orReg x _, z | .andReg x _, z | .xorReg x _, z
  | .rnd x _, z | .ldVxDt x, z | .ldVxK x, z => z == x
  | .addReg x _, z | .subReg x _, z | .subnReg x _, z | .shr x, z | .shl x, z => z == x || z == 0xF#4
  | .drw _ _ _, z | .addI _, z => z == 0xF#4
  | .ldRegs x, z => decide (z.toNat ≤ x.toNat)
  | .cls, _ | .ret, _ | .jp _, _ | .call _, _ | .seImm _ _, _ | .sneImm _ _, _ | .seReg _ _, _
  | .sneReg _ _, _ | .ldI _, _ | .jpV0 _, _ | .skp _, _ | .sknp _, _ | .ldDtVx _, _ | .ldStVx _, _
  | .ldF _, _ | .ldB _, _ | .stRegs _, _ => false

/-- The I column: `ANNN`, `FX1E`, `FX29`. -/
def writesI (i : Instr) : Prop := (∃ nnn, i = .ldI nnn) ∨ (∃ x, i = .addI x) ∨ (∃ x, i = .ldF x)

/-- The SP, STACK column: `2NNN`, `00EE`. -/
def writesStack (i : Instr) : Prop := i = .ret ∨ ∃ nnn, i = .call nnn

/-- The FB and RF columns: `00E0`, `DXYN`. -/
def writesDisplay (i : Instr) : Prop := i = .cls ∨ ∃ x y n, i = .drw x y n

/-- The DT column: `FX15`. -/
def writesDt (i : Instr) : Prop := ∃ x, i = .ldDtVx x

/-- The ST column: `FX18`. -/
def writesSt (i : Instr) : Prop := ∃ x, i = .ldStVx x

/-- The PC column. -/
def writesPc : Instr → Bool
  | .ret | .jp _ | .call _ | .jpV0 _ | .seImm _ _ | .sneImm _ _ | .seReg _ _ | .sneReg _ _ | .skp _ | .sknp _
  | .ldVxK _ => true
  | .cls | .ldImm _ _ | .addImm _ _ | .ldReg _ _ | .orReg _ _ | .andReg _ _ | .xorReg _ _ | .addReg _ _
  | .subReg _ _ | .shr _ | .subnReg _ _ | .shl _ | .ldI _ | .rnd _ _ | .drw _ _ _ | .ldVxDt _
  | .ldDtVx _ | .ldStVx _ | .addI _ | .ldF _ | .ldB _ | .stRegs _ | .ldRegs _ => false

/-- The MEM column: how many bytes from `effAddr` the instruction stores. -/
def storeCount : Instr → Nat
  | .ldB _ => 3
  | .stRegs x => regCount x
  | .cls | .ret | .jp _ | .call _ | .seImm _ _ | .sneImm _ _ | .seReg _ _ | .ldImm _ _ | .addImm _ _
  | .ldReg _ _ | .orReg _ _ | .andReg _ _ | .xorReg _ _ | .addReg _ _ | .subReg _ _ | .shr _
  | .subnReg _ _ | .shl _ | .sneReg _ _ | .ldI _ | .jpV0 _ | .rnd _ _ | .drw _ _ _ | .skp _ | .sknp _
  | .ldVxDt _ | .ldVxK _ | .ldDtVx _ | .ldStVx _ | .addI _ | .ldF _ | .ldRegs _ => 0

/-! ## What an instruction does not depend on -/

/-- An outcome with its next state changed by `g`. -/
def mapNext (g : State → State) : Host.Outcome State Fault Refusal → Host.Outcome State Fault Refusal
  | .next t => .next (g t)
  | .fault f => .fault f
  | .refused r => .refused r

/-- The instructions that read the key state: `EX9E`, `EXA1`, `FX0A` (10_state.md R22). -/
def readsKeys (i : Instr) : Prop := ∃ x, i = .skp x ∨ i = .sknp x ∨ i = .ldVxK x

/-- The flag-writing instructions: `8XY4` to `8XY7`, `8XYE`, `FX1E`, `DXYN` (10_state.md R11). -/
def writesFlag (i : Instr) : Prop :=
  (∃ x y, i = .addReg x y ∨ i = .subReg x y ∨ i = .subnReg x y) ∨ (∃ x, i = .shr x ∨ i = .shl x ∨ i = .addI x) ∨
    ∃ x y n, i = .drw x y n

/-! ## Timers before the tick -/

/-- DT when the tick of the step from `s` acts: `FX15` has already written it (60_exceptions.md R153). -/
def dtBeforeTick (s : State) : Byte :=
  match decodeWord (fetchWord s) with
  | some (.ldDtVx x) => getV s x
  | _ => s.dt

/-- ST when the tick of the step from `s` acts: `FX18` has already written it (60_exceptions.md R153). -/
def stBeforeTick (s : State) : Byte :=
  match decodeWord (fetchWord s) with
  | some (.ldStVx x) => getV s x
  | _ => s.st

/-! ## Sprites -/

/-- The sprite of `n` rows at address `a` with its top left at (cx, cy) has a 1 bit at the pixel (px, py)
(44_display.md R122, R123). -/
def spriteBit (m : Memory) (a cx cy n : Nat) (px : Fin 64) (py : Fin 32) : Prop :=
  ∃ row col, row < n ∧ col < 8 ∧ px.val = (cx + col) % 64 ∧ py.val = (cy + row) % 32 ∧
    (Memory.read m (a + row)).getLsbD (7 - col) = true

/-! ## Invariants -/

/-- MEM is in canonical form: addresses of MEM only, rising, no redundant cell. -/
abbrev MemoryCanonical (s : State) : Prop := Memory.wf s.mem

/-- PC and every stack entry stay where jumps, calls and straight-line code can take them: PC at most 0x10FE (the
largest `BNNN` sum, 41_control_flow.md R79), a return address at most 0x1000 (the successor of the last fetchable
instruction). -/
abbrev PcBounded (s : State) : Prop :=
  s.pc.toNat ≤ 0x10FE ∧ ∀ k : Fin 16, (s.stack.get k).toNat ≤ 0x1000

end Sys2Proof.Machine
end

