-- ==== Sys2Proof/Certificates/Slice0/Obligations.lean ====
section
/-! DEFINITION. The statements for the provers, from the numbered rules of spec/. In every statement about `exec` the
state is the one after the PC advance (40_step_cycle.md R67). -/

open Sys2Proof Sys2Proof.Machine

/-! ## Encoding -/

/-- 30_encoding.md section 3. Decoding the bytes of an instruction gives it back and leaves the rest of the bytes.
Every term of `Instr` is well formed (log 24). -/
def Obligations.DecodeEncodeRoundTrip : Prop :=
  ∀ (i : Instr) (rest : List Byte), decode (encodeBytes i ++ rest) = .ok (i, rest)

/-- 30_encoding.md R53, with the masks of decision D11 (log 8). A decoded word is in its instruction's row of the table,
and a word is unrecognised exactly when it is in none of the 34 rows. -/
def Obligations.DecoderFollowsTheTable : Prop :=
  ∀ w : Word,
    (∀ i, decodeWord w = some i → rowOf i ∈ rows ∧ w &&& (rowOf i).mask = (rowOf i).value) ∧
    (decodeWord w = none ↔ ∀ r ∈ rows, w &&& r.mask ≠ r.value)

/-- 30_encoding.md R53: no word matches two rows. -/
def Obligations.TableRowsAreDisjoint : Prop :=
  ∀ w : Word, ∀ r ∈ rows, ∀ r' ∈ rows, w &&& r.mask = r.value → w &&& r'.mask = r'.value → r = r'

/-- 30_encoding.md section 4, with the masks of decision D11 (log 8): every bit that is not an operand is fixed, so a
decoded word is the encoding of its instruction, but for `y` in `8XY6` and `8XYE`, where every value decodes to the
same instruction. -/
def Obligations.OnlyShiftsIgnoreAField : Prop :=
  (∀ (w : Word) (i : Instr), decodeWord w = some i →
    w = encode i ∨ ∃ x y, (i = .shr x ∧ w = packXYN 0x8 x y 0x6) ∨ (i = .shl x ∧ w = packXYN 0x8 x y 0xE)) ∧
  ∀ x y, decodeWord (packXYN 0x8 x y 0x6) = some (.shr x) ∧ decodeWord (packXYN 0x8 x y 0xE) = some (.shl x)

/-- 30_encoding.md R55, family by family: exactly these words are unrecognised. -/
def Obligations.UnrecognisedWordsByFamily : Prop :=
  ∀ w : Word, decodeWord w = none ↔
    (opField w = 0x0 ∧ w ≠ 0x00E0 ∧ w ≠ 0x00EE) ∨
    (opField w = 0x5 ∧ nField w ≠ 0) ∨
    (opField w = 0x8 ∧ nField w ∈ [0x8, 0x9, 0xA, 0xB, 0xC, 0xD, 0xF]) ∨
    (opField w = 0x9 ∧ nField w ≠ 0) ∨
    (opField w = 0xE ∧ nnField w ∉ [0x9E, 0xA1]) ∨
    (opField w = 0xF ∧ nnField w ∉ [0x07, 0x0A, 0x15, 0x18, 0x1E, 0x29, 0x33, 0x55, 0x65])

/-- Words of the spec's own examples (rules R76 to R135), one or more of each family, decode to what they stand for. -/
def Obligations.ExampleWordsDecode : Prop :=
  decodeWord 0x00E0 = some .cls ∧ decodeWord 0x00EE = some .ret ∧ decodeWord 0x1234 = some (.jp 0x234) ∧
  decodeWord 0x332A = some (.seImm 3 0x2A) ∧ decodeWord 0x6A3C = some (.ldImm 0xA 0x3C) ∧
  decodeWord 0x8124 = some (.addReg 1 2) ∧ decodeWord 0x81F6 = some (.shr 1) ∧
  decodeWord 0xA2F0 = some (.ldI 0x2F0) ∧ decodeWord 0xC30F = some (.rnd 3 0x0F) ∧
  decodeWord 0xD015 = some (.drw 0 1 5) ∧ decodeWord 0xE59E = some (.skp 5) ∧ decodeWord 0xF255 = some (.stRegs 2) ∧
  decodeWord 0x0000 = none ∧ decodeWord 0x8128 = none

/-! ## The step -/

/-- 40_step_cycle.md section 1. A step whose word decodes to `i` is `exec i` in the state with PC advanced by 2,
followed by the tick of both timers; a fault of `exec` is the fault of the step. -/
def Obligations.StepRunsTheDecodedInstruction : Prop :=
  ∀ (s : State) (i : Instr), s.pc.toNat ≤ 0xFFE →
    decode [Memory.read s.mem s.pc.toNat, Memory.read s.mem (s.pc.toNat + 1)] = .ok (i, []) →
    step s =
      match exec i { s with pc := s.pc + 2 } with
      | .next t => .next { t with dt := if t.dt = 0 then 0 else t.dt - 1, st := if t.st = 0 then 0 else t.st - 1 }
      | .fault f => .fault f
      | .refused r => .refused r

/-- 40_step_cycle.md section 1. An unrecognised word changes nothing but the PC advance and the tick, and emits the
diagnostic; its content, the word and its address, is decision D17 (log 16). -/
def Obligations.UnrecognisedWordOnlyAdvances : Prop :=
  ∀ s : State, s.pc.toNat ≤ 0xFFE → decodeWord (fetchWord s) = none →
    step s = .next { s with
      pc := s.pc + 2
      dt := if s.dt = 0 then 0 else s.dt - 1
      st := if s.st = 0 then 0 else s.st - 1 } ∧
    stepEvents s = .unknownOpcode (fetchWord s) s.pc :: if s.st = 1 then [.toneStart] else []

/-- 20_memory.md section 2, decision D4 (log 7). A fetch with PC > 0xFFE faults at the first byte outside memory. -/
def Obligations.FetchOutsideMemoryFaults : Prop :=
  ∀ s : State, 0xFFE < s.pc.toNat →
    ∃ a, step s = .fault (.memRange a) ∧ FirstOutside s.pc.toNat 2 a ∧ stepEvents s = []

/-- 40_step_cycle.md section 1 and 60_exceptions.md section 7: one tick at the end of every step that does not fault,
whatever was executed. Each timer loses 1 when above 0 and stays at 0; the tick sees the value `FX15` or `FX18` wrote
in the same step, and `FX07` reads DT before the tick. That the timer `FX07` reads is DT is decision D24, general
knowledge (log 9). A faulting step has no successor state. -/
def Obligations.TimersTickOncePerStep : Prop :=
  ∀ s t : State, step s = .next t →
    t.dt.toNat = (dtBeforeTick s).toNat - 1 ∧ t.st.toNat = (stBeforeTick s).toNat - 1 ∧
    ∀ x, decodeWord (fetchWord s) = some (.ldVxDt x) → getV t x = s.dt

/-- 60_exceptions.md R151: the sound timer's tick, and its event exactly when ST is 1 at the moment of decrement; the
event comes at most once. -/
def Obligations.ToneStartsExactlyWhenSoundTimerIsOne : Prop :=
  ∀ (s t : State) (ev : List Event), cycle s = .next (t, ev) →
    t.st.toNat = (stBeforeTick s).toNat - 1 ∧
    (Event.toneStart ∈ ev ↔ stBeforeTick s = 1) ∧ ev.count .toneStart ≤ 1

/-- 60_exceptions.md section 2. The diagnostic belongs to the steps that fetched an unrecognised word, with that word
and the address it was fetched from. -/
def Obligations.DiagnosticOnlyForUnrecognisedWords : Prop :=
  ∀ (s t : State) (ev : List Event) (w a : Word), cycle s = .next (t, ev) →
    (Event.unknownOpcode w a ∈ ev ↔ decodeWord (fetchWord s) = none ∧ w = fetchWord s ∧ a = s.pc)

/-- 40_step_cycle.md section 2. No step is refused: a step has a successor state or one of the model faults. -/
def Obligations.NoStepIsRefused : Prop :=
  ∀ (s : State) (r : Refusal), step s ≠ .refused r

/-- 70_reset_and_hazards.md section 3. A step completes exactly when the program keeps the duties of R169; which
behaviours are faults is the spec's decisions D3 to D5 (log 7). -/
def Obligations.StepCompletesExactlyWhenSafe : Prop :=
  ∀ s : State, (∃ t, step s = .next t) ↔ SafeStep s

/-- 60_exceptions.md section 2. A fault of a step is one of the four model faults, raised where R141 says and holding
what R141 says; decisions D17 and D18 (log 7). -/
def Obligations.FaultsAreTheFourModelFaults : Prop :=
  ∀ (s : State) (f : Fault), step s = .fault f →
    (∃ a, f = .memRange a ∧
      ((0xFFE < s.pc.toNat ∧ FirstOutside s.pc.toNat 2 a) ∨
        (Fetchable s ∧
          ∃ i, decodeWord (fetchWord s) = some i ∧ FirstOutside s.i.toNat (touchCount i) a))) ∨
    (Fetchable s ∧
      ((f = .stackOverflow 16 ∧ s.sp.val = 16 ∧ ∃ nnn, decodeWord (fetchWord s) = some (.call nnn)) ∨
        (f = .stackUnderflow 0 ∧ s.sp.val = 0 ∧ decodeWord (fetchWord s) = some .ret) ∨
        ∃ x, f = .keyIndexRange (getV s x).toNat ∧ 15 < (getV s x).toNat ∧
          (decodeWord (fetchWord s) = some (.skp x) ∨ decodeWord (fetchWord s) = some (.sknp x))))

/-! ## Control flow -/

/-- 41_control_flow.md R76: `1NNN`. -/
def Obligations.JumpSetsPc : Prop :=
  (∀ w : Word, w &&& 0xF000 = 0x1000 → decodeWord w = some (.jp (nnnField w))) ∧
  ∀ (s : State) (nnn : Addr12), exec (.jp nnn) s = .next { s with pc := BitVec.ofNat 16 nnn.toNat }

/-- 41_control_flow.md section 2: `BNNN`. That the sum is not reduced to 12 bits is decision D16 (log 14). -/
def Obligations.JumpPlusV0IsNotMasked : Prop :=
  ∀ (s : State) (nnn : Addr12), ∃ t, exec (.jpV0 nnn) s = .next t ∧
    t.pc.toNat = nnn.toNat + (getV s 0).toNat ∧ t = { s with pc := t.pc }

/-- 41_control_flow.md section 3: `2NNN` pushes the advanced PC; with all 16 entries in use it faults (decision D3,
log 7). -/
def Obligations.CallPushesTheReturnAddress : Prop :=
  ∀ (s : State) (nnn : Addr12),
    (∀ h : s.sp.val < 16, ∃ t, exec (.call nnn) s = .next t ∧
      t.pc.toNat = nnn.toNat ∧ t.sp.val = s.sp.val + 1 ∧ t.stack.get ⟨s.sp.val, h⟩ = s.pc ∧
      (∀ k : Fin 16, k.val ≠ s.sp.val → t.stack.get k = s.stack.get k) ∧
      t = { s with pc := t.pc, sp := t.sp, stack := t.stack }) ∧
    (s.sp.val = 16 → exec (.call nnn) s = .fault (.stackOverflow 16))

/-- 41_control_flow.md section 3: `00EE` pops the top entry, which keeps its value in the stack; with no entry in use it
faults (decision D3, log 7). -/
def Obligations.ReturnPopsTheTopEntry : Prop :=
  ∀ s : State,
    (∀ k : Fin 16, s.sp.val = k.val + 1 → ∃ t, exec .ret s = .next t ∧
      t.pc = s.stack.get k ∧ t.sp.val = k.val ∧ t = { s with pc := t.pc, sp := t.sp }) ∧
    (s.sp.val = 0 → exec .ret s = .fault (.stackUnderflow 0))

/-- 41_control_flow.md section 3: the `00EE` that meets the stack as a `2NNN` left it returns to the instruction after
the call, with the stack pointer the call found. -/
def Obligations.ReturnUndoesCall : Prop :=
  ∀ (s t u : State) (nnn : Addr12), exec (.call nnn) s = .next t → u.sp = t.sp → u.stack = t.stack →
    exec .ret u = .next { u with pc := s.pc, sp := s.sp }

/-- 41_control_flow.md R80 and R81: the two immediate skips. -/
def Obligations.ImmediateSkipsAddTwoWhenTheConditionHolds : Prop :=
  (∀ w : Word, w &&& 0xF000 = 0x3000 → decodeWord w = some (.seImm (xField w) (nnField w))) ∧
  (∀ w : Word, w &&& 0xF000 = 0x4000 → decodeWord w = some (.sneImm (xField w) (nnField w))) ∧
  ∀ (s : State) (x : Nibble) (nn : Byte),
    exec (.seImm x nn) s = .next { s with pc := if getV s x = nn then s.pc + 2 else s.pc } ∧
    exec (.sneImm x nn) s = .next { s with pc := if getV s x = nn then s.pc else s.pc + 2 }

/-- 41_control_flow.md section 4: the two register skips, x = y among them. That a low digit other than 0 is no
instruction is decision D11 (log 8). -/
def Obligations.RegisterSkipsAddTwoWhenTheConditionHolds : Prop :=
  (∀ w : Word, opField w = 0x5 →
    decodeWord w = if nField w = 0 then some (.seReg (xField w) (yField w)) else none) ∧
  (∀ w : Word, opField w = 0x9 →
    decodeWord w = if nField w = 0 then some (.sneReg (xField w) (yField w)) else none) ∧
  ∀ (s : State) (x y : Nibble),
    exec (.seReg x y) s = .next { s with pc := if getV s x = getV s y then s.pc + 2 else s.pc } ∧
    exec (.sneReg x y) s = .next { s with pc := if getV s x = getV s y then s.pc else s.pc + 2 }

/-- 00_scope.md section 7 (R8), with the step of 40_step_cycle.md section 1: the idle loop. A `1NNN` stored at its own address leaves every state element but the timers
as it was. -/
def Obligations.JumpToItselfIsIdle : Prop :=
  ∀ (s : State) (nnn : Addr12), s.pc.toNat ≤ 0xFFE → decodeWord (fetchWord s) = some (.jp nnn) →
    nnn.toNat = s.pc.toNat → ∃ t, step s = .next t ∧ t = { s with dt := t.dt, st := t.st }

/-! ## Registers and ALU -/

/-- 42_alu.md R90 and R91: `6XNN` and `7XNN`; neither writes VF unless it is V[x]. -/
def Obligations.LoadAndAddImmediate : Prop :=
  (∀ w : Word, w &&& 0xF000 = 0x6000 → decodeWord w = some (.ldImm (xField w) (nnField w))) ∧
  (∀ w : Word, w &&& 0xF000 = 0x7000 → decodeWord w = some (.addImm (xField w) (nnField w))) ∧
  ∀ (s : State) (x : Nibble) (nn : Byte),
    (∃ t, exec (.ldImm x nn) s = .next t ∧ getV t x = nn ∧ (∀ z, z ≠ x → getV t z = getV s z) ∧
      t = { s with v := t.v }) ∧
    (∃ t, exec (.addImm x nn) s = .next t ∧ (getV t x).toNat = ((getV s x).toNat + nn.toNat) % 256 ∧
      (∀ z, z ≠ x → getV t z = getV s z) ∧ t = { s with v := t.v })

/-- 42_alu.md R92 to R95: `8XY0` to `8XY3`, bit by bit; none writes VF unless it is V[x]. -/
def Obligations.MoveAndLogic : Prop :=
  (∀ w : Word, w &&& 0xF00F = 0x8000 → decodeWord w = some (.ldReg (xField w) (yField w))) ∧
  (∀ w : Word, w &&& 0xF00F = 0x8001 → decodeWord w = some (.orReg (xField w) (yField w))) ∧
  (∀ w : Word, w &&& 0xF00F = 0x8002 → decodeWord w = some (.andReg (xField w) (yField w))) ∧
  (∀ w : Word, w &&& 0xF00F = 0x8003 → decodeWord w = some (.xorReg (xField w) (yField w))) ∧
  ∀ (s : State) (x y : Nibble),
    (∃ t, exec (.ldReg x y) s = .next t ∧ getV t x = getV s y ∧ (∀ z, z ≠ x → getV t z = getV s z) ∧
      t = { s with v := t.v }) ∧
    (∃ t, exec (.orReg x y) s = .next t ∧
      (∀ k, (getV t x).getLsbD k = ((getV s x).getLsbD k || (getV s y).getLsbD k)) ∧
      (∀ z, z ≠ x → getV t z = getV s z) ∧ t = { s with v := t.v }) ∧
    (∃ t, exec (.andReg x y) s = .next t ∧
      (∀ k, (getV t x).getLsbD k = ((getV s x).getLsbD k && (getV s y).getLsbD k)) ∧
      (∀ z, z ≠ x → getV t z = getV s z) ∧ t = { s with v := t.v }) ∧
    (∃ t, exec (.xorReg x y) s = .next t ∧
      (∀ k, (getV t x).getLsbD k = ((getV s x).getLsbD k != (getV s y).getLsbD k)) ∧
      (∀ z, z ≠ x → getV t z = getV s z) ∧ t = { s with v := t.v })

/-- 42_alu.md section 3: `8XY4`, `8XY5`, `8XY7`. The flag is a function of the operands before the operation. For x = F
VF holds the flag and the result is lost: decision D7 (log 5). For y = F the operand is the VF from before the flag is
written: decision D8 (log 6). -/
def Obligations.AddAndSubtractWithFlag : Prop :=
  ∀ (s : State) (x y : Nibble),
    (∃ t, exec (.addReg x y) s = .next t ∧
      getV t 0xF#4 = (if 255 < (getV s x).toNat + (getV s y).toNat then 1 else 0) ∧
      (x ≠ 0xF#4 → (getV t x).toNat = ((getV s x).toNat + (getV s y).toNat) % 256) ∧
      (∀ z, z ≠ x → z ≠ 0xF#4 → getV t z = getV s z) ∧ t = { s with v := t.v }) ∧
    (∃ t, exec (.subReg x y) s = .next t ∧
      getV t 0xF#4 = (if (getV s y).toNat ≤ (getV s x).toNat then 1 else 0) ∧
      (x ≠ 0xF#4 → ((getV t x).toNat : Int) = ((getV s x).toNat - (getV s y).toNat : Int) % 256) ∧
      (∀ z, z ≠ x → z ≠ 0xF#4 → getV t z = getV s z) ∧ t = { s with v := t.v }) ∧
    (∃ t, exec (.subnReg x y) s = .next t ∧
      getV t 0xF#4 = (if (getV s x).toNat ≤ (getV s y).toNat then 1 else 0) ∧
      (x ≠ 0xF#4 → ((getV t x).toNat : Int) = ((getV s y).toNat - (getV s x).toNat : Int) % 256) ∧
      (∀ z, z ≠ x → z ≠ 0xF#4 → getV t z = getV s z) ∧ t = { s with v := t.v })

/-- 42_alu.md section 3: `8XY6`, `8XYE`. The flag is the bit that leaves V[x]. For x = F VF holds the flag: decision D7
(log 5). -/
def Obligations.ShiftsMoveOneBitIntoTheFlag : Prop :=
  ∀ (s : State) (x : Nibble),
    (∃ t, exec (.shr x) s = .next t ∧ (getV t 0xF#4).toNat = (getV s x).toNat % 2 ∧
      (x ≠ 0xF#4 → (getV t x).toNat = (getV s x).toNat / 2) ∧
      (∀ z, z ≠ x → z ≠ 0xF#4 → getV t z = getV s z) ∧ t = { s with v := t.v }) ∧
    (∃ t, exec (.shl x) s = .next t ∧ (getV t 0xF#4).toNat = (getV s x).toNat / 128 ∧
      (x ≠ 0xF#4 → (getV t x).toNat = (getV s x).toNat * 2 % 256) ∧
      (∀ z, z ≠ x → z ≠ 0xF#4 → getV t z = getV s z) ∧ t = { s with v := t.v })

/-- 42_alu.md section 5: `CXNN`. The random byte is a free value (log 1): V[x] is the byte of this draw masked by nn,
whatever that byte is; the model's own draw counter, one more, is the only other field that changes. -/
def Obligations.RandomByteIsMasked : Prop :=
  ∀ (s : State) (x : Nibble) (nn : Byte), ∃ t, exec (.rnd x nn) s = .next t ∧
    getV t x = rndOf s &&& nn ∧ (∀ k, nn.getLsbD k = false → (getV t x).getLsbD k = false) ∧
    (∀ z, z ≠ x → getV t z = getV s z) ∧ t = { s with v := t.v, draws := s.draws + 1 }

/-! ## Index register and memory -/

/-- 43_index_memory.md R110 and R112: `ANNN` and `FX29`; every register value gives a glyph address. -/
def Obligations.LoadIndexAndGlyphAddress : Prop :=
  (∀ w : Word, w &&& 0xF000 = 0xA000 → decodeWord w = some (.ldI (nnnField w))) ∧
  (∀ w : Word, w &&& 0xF0FF = 0xF029 → decodeWord w = some (.ldF (xField w))) ∧
  ∀ (s : State) (nnn : Addr12) (x : Nibble),
    (∃ t, exec (.ldI nnn) s = .next t ∧ t.i.toNat = nnn.toNat ∧ t = { s with i := t.i }) ∧
    (∃ t, exec (.ldF x) s = .next t ∧ t.i.toNat = 0x050 + (getV s x).toNat % 16 * 5 ∧ t = { s with i := t.i })

/-- 43_index_memory.md section 1: `FX1E`. I keeps 16 bits and the flag is taken at 0xFFF. For x = F VF holds the flag:
decision D7 (log 5). -/
def Obligations.AddToIndexFlagsAboveTwelveBits : Prop :=
  ∀ (s : State) (x : Nibble), ∃ t, exec (.addI x) s = .next t ∧
    t.i.toNat = (s.i.toNat + (getV s x).toNat) % 65536 ∧
    getV t 0xF#4 = (if 0xFFF < s.i.toNat + (getV s x).toNat then 1 else 0) ∧
    (∀ z, z ≠ 0xF#4 → getV t z = getV s z) ∧ t = { s with v := t.v, i := t.i }

/-- 43_index_memory.md section 2: `FX33` stores the three decimal digits at I, I+1, I+2 and nothing else; I is unchanged
(decision D9); outside memory it faults with nothing written (decision D4, log 7). -/
def Obligations.DecimalDigitsAreStored : Prop :=
  ∀ (s : State) (x : Nibble),
    (s.i.toNat + 2 ≤ 0xFFF → ∃ t, exec (.ldB x) s = .next t ∧
      (∃ h d o : Byte, Memory.read t.mem s.i.toNat = h ∧ Memory.read t.mem (s.i.toNat + 1) = d ∧
        Memory.read t.mem (s.i.toNat + 2) = o ∧ h.toNat ≤ 2 ∧ d.toNat ≤ 9 ∧ o.toNat ≤ 9 ∧
        100 * h.toNat + 10 * d.toNat + o.toNat = (getV s x).toNat) ∧
      (∀ a, ¬(s.i.toNat ≤ a ∧ a ≤ s.i.toNat + 2) → Memory.read t.mem a = Memory.read s.mem a) ∧
      t = { s with mem := t.mem }) ∧
    (0xFFF < s.i.toNat + 2 → ∃ a, exec (.ldB x) s = .fault (.memRange a) ∧ FirstOutside s.i.toNat 3 a)

/-- 43_index_memory.md section 2: `FX55` stores V[k] at I + k for k = 0..x (decision D19, log 12) and nothing else; I is
unchanged (decision D9); outside memory it faults with nothing written (decision D4, log 7). -/
def Obligations.RegistersAreStoredFromIndex : Prop :=
  ∀ (s : State) (x : Nibble),
    (s.i.toNat + x.toNat ≤ 0xFFF → ∃ t, exec (.stRegs x) s = .next t ∧
      (∀ k : Nibble, k.toNat ≤ x.toNat → Memory.read t.mem (s.i.toNat + k.toNat) = getV s k) ∧
      (∀ a, ¬(s.i.toNat ≤ a ∧ a ≤ s.i.toNat + x.toNat) → Memory.read t.mem a = Memory.read s.mem a) ∧
      t = { s with mem := t.mem }) ∧
    (0xFFF < s.i.toNat + x.toNat →
      ∃ a, exec (.stRegs x) s = .fault (.memRange a) ∧ FirstOutside s.i.toNat (x.toNat + 1) a)

/-- 43_index_memory.md section 3: `FX65` loads V[k] from I + k for k = 0..x (decision D19, log 12); the registers above x
and I are unchanged; outside memory it faults (decision D4, log 7). -/
def Obligations.RegistersAreLoadedFromIndex : Prop :=
  ∀ (s : State) (x : Nibble),
    (s.i.toNat + x.toNat ≤ 0xFFF → ∃ t, exec (.ldRegs x) s = .next t ∧
      (∀ k : Nibble, getV t k =
        if k.toNat ≤ x.toNat then Memory.read s.mem (s.i.toNat + k.toNat) else getV s k) ∧
      t = { s with v := t.v }) ∧
    (0xFFF < s.i.toNat + x.toNat →
      ∃ a, exec (.ldRegs x) s = .fault (.memRange a) ∧ FirstOutside s.i.toNat (x.toNat + 1) a)

/-- 43_index_memory.md sections 2 and 3: what `FX55` stored, `FX65` with the same x and I loads back, whatever the
registers hold by then. -/
def Obligations.StoredRegistersLoadBack : Prop :=
  ∀ (s t u : State) (x : Nibble), exec (.stRegs x) s = .next t → u.mem = t.mem → u.i = s.i →
    ∃ w, exec (.ldRegs x) u = .next w ∧ ∀ k : Nibble, k.toNat ≤ x.toNat → getV w k = getV s k

/-- 20_memory.md section 7: a store is seen by the very next fetch. Two registers stored at PC are the next instruction
word, the lower address high. -/
def Obligations.StoredBytesAreFetched : Prop :=
  ∀ (s t : State) (x : Nibble) (k : Nat) (p : Word), exec (.stRegs x) s = .next t → k + 1 ≤ x.toNat →
    p.toNat = s.i.toNat + k →
    fetchWord { t with pc := p } = joinBytes (getV s (BitVec.ofNat 4 k)) (getV s (BitVec.ofNat 4 (k + 1)))

/-! ## Display -/

/-- 44_display.md R121: `00E0` clears every pixel and sets RF, whatever they were; VF is not written. -/
def Obligations.ClearScreen : Prop :=
  decodeWord 0x00E0 = some .cls ∧
  ∀ s : State, ∃ t, exec .cls s = .next t ∧ (∀ px py, pixel t.fb px py = false) ∧ t.rf = true ∧
    t = { s with fb := t.fb, rf := t.rf }

/-- 44_display.md section 3: `DXYN`. Every pixel under a 1 bit of the sprite flips, every other pixel stays; VF is 1
exactly when a set pixel was cleared; RF is set; nothing else changes. Bit 7 leftmost and rows downward is decision D14
(log 10); coordinates read before VF is written is decision D8 (log 6); that I is unchanged is decision D9 (log 13); the
fault is decision D4 (log 7). -/
def Obligations.DrawFlipsTheSpritePixels : Prop :=
  ∀ (s : State) (x y n : Nibble),
    (InMemory s.i.toNat n.toNat → ∃ t, exec (.drw x y n) s = .next t ∧
      (∀ px py,
        (spriteBit s.mem s.i.toNat (getV s x).toNat (getV s y).toNat n.toNat px py →
          pixel t.fb px py = !pixel s.fb px py) ∧
        (¬spriteBit s.mem s.i.toNat (getV s x).toNat (getV s y).toNat n.toNat px py →
          pixel t.fb px py = pixel s.fb px py)) ∧
      (getV t 0xF#4 = 1 ∨ getV t 0xF#4 = 0) ∧
      (getV t 0xF#4 = 1 ↔ ∃ px py, pixel s.fb px py = true ∧ pixel t.fb px py = false) ∧
      t.rf = true ∧ (∀ z, z ≠ 0xF#4 → getV t z = getV s z) ∧
      t = { s with v := t.v, fb := t.fb, rf := t.rf }) ∧
    (¬InMemory s.i.toNat n.toNat →
      ∃ a, exec (.drw x y n) s = .fault (.memRange a) ∧ FirstOutside s.i.toNat n.toNat a)

/-- 44_display.md section 3: drawing the same sprite again at the same coordinates restores the framebuffer, and VF is 1
on the second draw exactly when the first draw turned a pixel on. -/
def Obligations.DrawingTwiceRestores : Prop :=
  ∀ (s t u : State) (x y n : Nibble), exec (.drw x y n) s = .next t → u.mem = s.mem → u.i = s.i →
    getV u x = getV s x → getV u y = getV s y → u.fb = t.fb →
    ∃ w, exec (.drw x y n) u = .next w ∧ w.fb = s.fb ∧
      (getV w 0xF#4 = 1 ↔ ∃ px py, pixel s.fb px py = false ∧ pixel t.fb px py = true)

/-! ## Keys and timers -/

/-- 45_keys_timers.md section 1: `EX9E`, `EXA1`. A key index above 15 faults: decision D5 (log 7). -/
def Obligations.KeySkips : Prop :=
  ∀ (s : State) (x : Nibble),
    (∀ k : Fin 16, (getV s x).toNat = k.val →
      exec (.skp x) s = .next { s with pc := if s.keys.get k then s.pc + 2 else s.pc } ∧
      exec (.sknp x) s = .next { s with pc := if s.keys.get k then s.pc else s.pc + 2 }) ∧
    (15 < (getV s x).toNat →
      exec (.skp x) s = .fault (.keyIndexRange (getV s x).toNat) ∧
      exec (.sknp x) s = .fault (.keyIndexRange (getV s x).toNat))

/-- 45_keys_timers.md R132: `FX0A`. The lowest pressed key goes into V[x]; with no key down PC goes back to the
instruction itself and nothing else changes, and the step that runs it is complete, tick included, and leaves PC in
place. -/
def Obligations.WaitForKey : Prop :=
  (∀ w : Word, w &&& 0xF0FF = 0xF00A → decodeWord w = some (.ldVxK (xField w))) ∧
  (∀ (s : State) (x : Nibble),
    (∀ k : Fin 16, s.keys.get k = true → (∀ j : Fin 16, j < k → s.keys.get j = false) →
      ∃ t, exec (.ldVxK x) s = .next t ∧ (getV t x).toNat = k.val ∧ (∀ z, z ≠ x → getV t z = getV s z) ∧
        t = { s with v := t.v }) ∧
    ((∀ k : Fin 16, s.keys.get k = false) → exec (.ldVxK x) s = .next { s with pc := s.pc - 2 })) ∧
  ∀ (s : State) (x : Nibble), Fetchable s → decodeWord (fetchWord s) = some (.ldVxK x) →
    (∀ k : Fin 16, s.keys.get k = false) →
    step s = .next { s with
      dt := if s.dt = 0 then 0 else s.dt - 1
      st := if s.st = 0 then 0 else s.st - 1 }

/-- 45_keys_timers.md section 3: `FX07` reads DT; that it is DT is decision D24 (log 9). -/
def Obligations.ReadDelayTimer : Prop :=
  ∀ (s : State) (x : Nibble), ∃ t, exec (.ldVxDt x) s = .next t ∧ getV t x = s.dt ∧
    (∀ z, z ≠ x → getV t z = getV s z) ∧ t = { s with v := t.v }

/-- 45_keys_timers.md R134 and R135: `FX15` and `FX18` write their timer; the tick of the same step acts on the new
value, tone-start included. -/
def Obligations.SetTimers : Prop :=
  (∀ w : Word, w &&& 0xF0FF = 0xF015 → decodeWord w = some (.ldDtVx (xField w))) ∧
  (∀ w : Word, w &&& 0xF0FF = 0xF018 → decodeWord w = some (.ldStVx (xField w))) ∧
  (∀ (s : State) (x : Nibble),
    exec (.ldDtVx x) s = .next { s with dt := getV s x } ∧ exec (.ldStVx x) s = .next { s with st := getV s x }) ∧
  ∀ (s t : State) (ev : List Event) (x : Nibble), cycle s = .next (t, ev) →
    (decodeWord (fetchWord s) = some (.ldDtVx x) → t.dt.toNat = (getV s x).toNat - 1) ∧
    (decodeWord (fetchWord s) = some (.ldStVx x) →
      t.st.toNat = (getV s x).toNat - 1 ∧ (Event.toneStart ∈ ev ↔ getV s x = 1))

/-! ## Frames: what no instruction changes (10_state.md R27) -/

/-- The V column of R27: a register the table does not give the instruction is unchanged. -/
def Obligations.FrameOfRegisters : Prop :=
  ∀ (i : Instr) (s t : State) (z : Nibble), exec i s = .next t → writesV i z = false → getV t z = getV s z

/-- The MEM column of R27: every byte outside those the instruction stores at `effAddr` reads as before; an instruction
that stores nothing changes no byte. -/
def Obligations.FrameOfMemory : Prop :=
  ∀ (i : Instr) (s t : State) (a : Nat), exec i s = .next t →
    ¬(effAddr s ≤ a ∧ a < effAddr s + storeCount i) → Memory.read t.mem a = Memory.read s.mem a

/-- The other columns of R27: I, PC, SP and STACK, FB and RF, DT, ST, K; and the model's draw counter, which only `CXNN`
moves (log 1). That `FX33`, `FX55`, `FX65` and `DXYN` leave I is decision D9 (log 13). -/
def Obligations.FrameOfTheOtherState : Prop :=
  ∀ (i : Instr) (s t : State), exec i s = .next t →
    (¬writesI i → t.i = s.i) ∧ (writesPc i = false → t.pc = s.pc) ∧
    (¬writesStack i → t.sp = s.sp ∧ t.stack = s.stack) ∧ (¬writesDisplay i → t.fb = s.fb ∧ t.rf = s.rf) ∧
    (¬writesDt i → t.dt = s.dt) ∧ (¬writesSt i → t.st = s.st) ∧ t.keys = s.keys ∧
    ((∀ x nn, i ≠ .rnd x nn) → t.draws = s.draws)

/-- 10_state.md section 1: the seven flag-writing instructions leave VF at 0 or 1 on every execution; every other
instruction leaves VF alone unless it names it as its destination. That VF is the flag also for x = F, where the result
goes to VF too, is decision D7 (log 5). -/
def Obligations.FlagRegisterOverload : Prop :=
  ∀ (i : Instr) (s t : State), exec i s = .next t →
    (writesFlag i → getV t 0xF#4 = 0 ∨ getV t 0xF#4 = 1) ∧
    (¬writesFlag i → (∀ nn, i ≠ .ldImm 0xF#4 nn ∧ i ≠ .addImm 0xF#4 nn ∧ i ≠ .rnd 0xF#4 nn) →
      (∀ y, i ≠ .ldReg 0xF#4 y ∧ i ≠ .orReg 0xF#4 y ∧ i ≠ .andReg 0xF#4 y ∧ i ≠ .xorReg 0xF#4 y) →
      i ≠ .ldVxDt 0xF#4 → i ≠ .ldVxK 0xF#4 → i ≠ .ldRegs 0xF#4 → getV t 0xF#4 = getV s 0xF#4)

/-! ## Whole-machine rules -/

/-- 10_state.md R20: RF is set by `00E0` and `DXYN` on every execution and cleared by no instruction; no instruction
reads it; only the host's `clear_redraw` and reset write 0 to it. -/
def Obligations.RedrawFlagIsOnlySet : Prop :=
  (∀ (i : Instr) (s t : State), exec i s = .next t →
    (writesDisplay i → t.rf = true) ∧ (¬writesDisplay i → t.rf = s.rf)) ∧
  (∀ s t : State, step s = .next t →
    (t.rf = true ↔ s.rf = true ∨ ∃ i, decodeWord (fetchWord s) = some i ∧ writesDisplay i)) ∧
  (∀ (s : State) (b : Bool) (i : Instr),
    (writesDisplay i → exec i { s with rf := b } = exec i s) ∧
    (¬writesDisplay i → exec i { s with rf := b } = mapNext (fun t => { t with rf := b }) (exec i s))) ∧
  (∀ s : State, clearRedraw s = { s with rf := false } ∧ (hostReset s).rf = false)

/-- 10_state.md R22: the core never writes K; `EX9E`, `EXA1` and `FX0A` read it and no other instruction does; the
host's `set_key` writes one key and reset clears all. -/
def Obligations.KeyStateIsReadOnly : Prop :=
  (∀ s t : State, step s = .next t → t.keys = s.keys) ∧
  (∀ (s : State) (ks : Vector Bool 16) (i : Instr), ¬readsKeys i →
    exec i { s with keys := ks } = mapNext (fun t => { t with keys := ks }) (exec i s)) ∧
  (∀ i, readsKeys i → ∃ (s : State) (ks : Vector Bool 16),
    exec i { s with keys := ks } ≠ mapNext (fun t => { t with keys := ks }) (exec i s)) ∧
  (∀ (s : State) (k : Fin 16), (hostReset s).keys.get k = false) ∧
  (∀ (s : State) (k j : Fin 16) (b : Bool),
    (setKey k b s).keys.get j = (if j = k then b else s.keys.get j) ∧
    setKey k b s = { s with keys := (setKey k b s).keys })

/-- 45_keys_timers.md section 3: no instruction reads ST. It rests on `FX07` reading DT: decision D24, general knowledge
(log 9). -/
def Obligations.SoundTimerIsUnobservable : Prop :=
  ∀ (s : State) (b : Byte) (i : Instr),
    (writesSt i → exec i { s with st := b } = exec i s) ∧
    (¬writesSt i → exec i { s with st := b } = mapNext (fun t => { t with st := b }) (exec i s))

/-- 40_step_cycle.md section 2: only `CXNN` depends on the random input, here the model's draw counter (log 1). -/
def Obligations.OnlyRandomDependsOnTheDraw : Prop :=
  ∀ (s : State) (d : Nat) (i : Instr), (∀ x nn, i ≠ .rnd x nn) →
    exec i { s with draws := d } = mapNext (fun t => { t with draws := d }) (exec i s)

/-- 20_memory.md section 1: every step keeps memory in its canonical form (log 3), so that no cell outside 0x000..0xFFF is
ever written and equal memories are equal data. That a store outside memory is a fault is decision D4 (log 7). -/
def Obligations.StepKeepsMemoryCanonical : Prop :=
  ∀ s t : State, MemoryCanonical s → step s = .next t → MemoryCanonical t

/-- 10_state.md section 3, 41_control_flow.md sections 2 and 3: every step keeps PC at most 0x10FE and every stack entry at
most 0x1000. -/
def Obligations.StepKeepsPcBounded : Prop :=
  ∀ s t : State, PcBounded s → step s = .next t → PcBounded t

/-- Both invariants hold after reset, and every action of the host that writes state keeps each of them, the model's own
`withFetchWord` too (logs 3, 17, 18). -/
def Obligations.ResetAndHostKeepInvariants : Prop :=
  (MemoryCanonical State.reset ∧ PcBounded State.reset) ∧
  (∀ s : State, MemoryCanonical (hostReset s) ∧ PcBounded (hostReset s)) ∧
  (∀ (s t : State) (bytes : List Byte), loadProgram bytes s = .ok t →
    (MemoryCanonical s → MemoryCanonical t) ∧ (PcBounded s → PcBounded t)) ∧
  (∀ (s : State) (k : Fin 16) (b : Bool),
    (MemoryCanonical s → MemoryCanonical (setKey k b s)) ∧ (PcBounded s → PcBounded (setKey k b s))) ∧
  (∀ s : State,
    (MemoryCanonical s → MemoryCanonical (clearRedraw s)) ∧ (PcBounded s → PcBounded (clearRedraw s))) ∧
  ∀ (s : State) (nbits w : Nat),
    (MemoryCanonical s → MemoryCanonical (s.withFetchWord nbits w)) ∧
    (PcBounded s → PcBounded (s.withFetchWord nbits w))

/-! ## Reset and the host -/

/-- 10_state.md section 11: every reset value, from any state. I = 0 is decision D10 (log 4); FONT is the parameter of
decision D13 (log 2). -/
def Obligations.ResetValues : Prop :=
  ∀ s : State,
    (∀ z, getV (hostReset s) z = 0) ∧ (hostReset s).i = 0 ∧ (hostReset s).pc = 0x200 ∧ (hostReset s).sp.val = 0 ∧
    (∀ k : Fin 16, (hostReset s).stack.get k = 0) ∧
    (∀ j, j < 80 → Memory.read (hostReset s).mem (0x050 + j) = Config.font.getD j 0) ∧
    (∀ a, a < 0x050 ∨ 0x0A0 ≤ a → Memory.read (hostReset s).mem a = 0) ∧
    (∀ px py, pixel (hostReset s).fb px py = false) ∧ (hostReset s).rf = false ∧ (hostReset s).dt = 0 ∧
    (hostReset s).st = 0 ∧ (∀ k : Fin 16, (hostReset s).keys.get k = false) ∧
    hostReset State.reset = State.reset

/-- 20_memory.md R43: more than 3584 bytes are refused and nothing is written; 3584 or fewer are accepted, and byte k is
at 0x200 + k; the empty program writes nothing. -/
def Obligations.LoadProgramIsAllOrNothing : Prop :=
  ∀ (s : State) (bytes : List Byte),
    (3584 < bytes.length → loadProgram bytes s = .error (.romTooLarge bytes.length)) ∧
    (bytes.length ≤ 3584 → ∃ t, loadProgram bytes s = .ok t ∧
      ∀ k, k < bytes.length → Memory.read t.mem (0x200 + k) = bytes.getD k 0) ∧
    (bytes = [] → loadProgram bytes s = .ok s)

/-- 20_memory.md section 8: a load writes its bytes and no other, and no other state element (decision D20, log 18). -/
def Obligations.LoadProgramFrame : Prop :=
  ∀ (s t : State) (bytes : List Byte), loadProgram bytes s = .ok t →
    (∀ a, ¬(0x200 ≤ a ∧ a < 0x200 + bytes.length) → Memory.read t.mem a = Memory.read s.mem a) ∧
    t = { s with mem := t.mem }

/-- 70_reset_and_hazards.md section 2: after reset and load, the first two bytes of the program are the first word
fetched, and when they are an instruction the first step runs it. -/
def Obligations.BootRunsTheFirstProgramWord : Prop :=
  ∀ (s t : State) (b0 b1 : Byte) (rest : List Byte) (i : Instr),
    loadProgram (b0 :: b1 :: rest) (hostReset s) = .ok t →
    fetchWord t = joinBytes b0 b1 ∧
    (decodeWord (joinBytes b0 b1) = some i → step t = mapNext tick (exec i { t with pc := 0x202 }))

/-- The model's `withFetchWord` (log 18): the next fetch reads the placed word, and only the two bytes at PC change. -/
def Obligations.PlacedWordIsFetched : Prop :=
  ∀ (s : State) (w : Word), Fetchable s →
    fetchWord (s.withFetchWord 16 w.toNat) = w ∧
    (∀ a, a ≠ s.pc.toNat → a ≠ s.pc.toNat + 1 →
      Memory.read (s.withFetchWord 16 w.toNat).mem a = Memory.read s.mem a) ∧
    s.withFetchWord 16 w.toNat = { s with mem := (s.withFetchWord 16 w.toNat).mem }
end

