-- ==== Sys2Proof/Laws/Decode.lean ====
section
/-! SUPPORT. The fields of packed words and back (30_encoding.md R51), and bytes of a word. -/

namespace Sys2Proof

/-! ## Field of a packed word -/

@[simp] theorem opField_packNNN (op : Nibble) (nnn : Addr12) : opField (packNNN op nnn) = op := by
  apply BitVec.eq_of_toNat_eq
  simp [opField, packNNN, Nat.shiftRight_eq_div_pow]
  omega

@[simp] theorem nnnField_packNNN (op : Nibble) (nnn : Addr12) : nnnField (packNNN op nnn) = nnn := by
  apply BitVec.eq_of_toNat_eq
  simp [nnnField, packNNN]
  omega

@[simp] theorem opField_packXNN (op x : Nibble) (nn : Byte) : opField (packXNN op x nn) = op := by
  apply BitVec.eq_of_toNat_eq
  simp [opField, packXNN, Nat.shiftRight_eq_div_pow]
  omega

@[simp] theorem xField_packXNN (op x : Nibble) (nn : Byte) : xField (packXNN op x nn) = x := by
  apply BitVec.eq_of_toNat_eq
  simp [xField, packXNN, Nat.shiftRight_eq_div_pow]
  omega

@[simp] theorem nnField_packXNN (op x : Nibble) (nn : Byte) : nnField (packXNN op x nn) = nn := by
  apply BitVec.eq_of_toNat_eq
  simp [nnField, packXNN]
  omega

@[simp] theorem opField_packXYN (op x y n : Nibble) : opField (packXYN op x y n) = op := by
  apply BitVec.eq_of_toNat_eq
  simp [opField, packXYN, Nat.shiftRight_eq_div_pow]
  omega

@[simp] theorem xField_packXYN (op x y n : Nibble) : xField (packXYN op x y n) = x := by
  apply BitVec.eq_of_toNat_eq
  simp [xField, packXYN, Nat.shiftRight_eq_div_pow]
  omega

@[simp] theorem yField_packXYN (op x y n : Nibble) : yField (packXYN op x y n) = y := by
  apply BitVec.eq_of_toNat_eq
  simp [yField, packXYN, Nat.shiftRight_eq_div_pow]
  omega

@[simp] theorem nField_packXYN (op x y n : Nibble) : nField (packXYN op x y n) = n := by
  apply BitVec.eq_of_toNat_eq
  simp [nField, packXYN]
  omega

/-! ## A word is its fields packed -/

theorem packNNN_fields (w : Word) : packNNN (opField w) (nnnField w) = w := by
  apply BitVec.eq_of_toNat_eq
  simp [opField, nnnField, packNNN, Nat.shiftRight_eq_div_pow]
  omega

theorem packXNN_fields (w : Word) : packXNN (opField w) (xField w) (nnField w) = w := by
  apply BitVec.eq_of_toNat_eq
  simp [opField, xField, nnField, packXNN, Nat.shiftRight_eq_div_pow]
  omega

theorem packXYN_fields (w : Word) : packXYN (opField w) (xField w) (yField w) (nField w) = w := by
  apply BitVec.eq_of_toNat_eq
  simp [opField, xField, yField, nField, packXYN, Nat.shiftRight_eq_div_pow]
  omega

/-! ## Bytes of a word -/

@[simp] theorem joinBytes_hiByte_loByte (w : Word) : joinBytes (hiByte w) (loByte w) = w := by
  apply BitVec.eq_of_toNat_eq
  simp [joinBytes, hiByte, loByte, Nat.shiftRight_eq_div_pow]
  omega

@[simp] theorem hiByte_joinBytes (hi lo : Byte) : hiByte (joinBytes hi lo) = hi := by
  apply BitVec.eq_of_toNat_eq
  simp [joinBytes, hiByte, Nat.shiftRight_eq_div_pow]
  omega

@[simp] theorem loByte_joinBytes (hi lo : Byte) : loByte (joinBytes hi lo) = lo := by
  apply BitVec.eq_of_toNat_eq
  simp [joinBytes, loByte]
  omega

/-- Decoding two bytes is decoding their word. -/
theorem decode_two (hi lo : Byte) (rest : List Byte) :
    decode (hi :: lo :: rest) =
      match decodeWord (joinBytes hi lo) with
      | some i => .ok (i, rest)
      | none => .error (.unrecognised (joinBytes hi lo)) := rfl

/-! ## The masks of R53 keep whole fields -/

theorem and_mask_F000 (w : Word) : w &&& 0xF000#16 = (opField w).setWidth 16 <<< 12 := by
  apply BitVec.eq_of_getLsbD_eq
  intro i hi
  interval_cases i <;> simp [opField]

theorem and_mask_F00F (w : Word) :
    w &&& 0xF00F#16 = ((opField w).setWidth 16 <<< 12) ||| (nField w).setWidth 16 := by
  apply BitVec.eq_of_getLsbD_eq
  intro i hi
  interval_cases i <;> simp [opField, nField]

theorem and_mask_F0FF (w : Word) :
    w &&& 0xF0FF#16 = ((opField w).setWidth 16 <<< 12) ||| (nnField w).setWidth 16 := by
  apply BitVec.eq_of_getLsbD_eq
  intro i hi
  interval_cases i <;> simp [opField, nnField]

theorem and_mask_FFFF (w : Word) : w &&& 0xFFFF#16 = w := by
  apply BitVec.eq_of_getLsbD_eq
  intro i hi
  interval_cases i <;> simp

/-! ## What a match of R53 says of the fields -/

theorem opField_of_mask_F000 {w v : Word} (h : w &&& 0xF000#16 = v) : opField w = v.extractLsb' 12 4 := by
  subst h
  apply BitVec.eq_of_getLsbD_eq
  intro i hi
  interval_cases i <;> simp [opField]

theorem fields_of_mask_F00F {w v : Word} (h : w &&& 0xF00F#16 = v) :
    opField w = v.extractLsb' 12 4 ∧ nField w = v.extractLsb' 0 4 := by
  subst h
  constructor <;> apply BitVec.eq_of_getLsbD_eq <;> intro i hi <;> interval_cases i <;> simp [opField, nField]

theorem fields_of_mask_F0FF {w v : Word} (h : w &&& 0xF0FF#16 = v) :
    opField w = v.extractLsb' 12 4 ∧ nnField w = v.extractLsb' 0 8 := by
  subst h
  constructor <;> apply BitVec.eq_of_getLsbD_eq <;> intro i hi <;> interval_cases i <;> simp [opField, nnField]

end Sys2Proof
end

