-- ==== Sys2Proof/Laws/Memory.lean ====
section
/-! SUPPORT. Memory: a read after a write, and the canonical form kept by every operation. -/

namespace Sys2Proof.Machine

/-! ## Reads -/

theorem Memory.read_insert (m : Memory) (a b : Nat) (w : Byte) (h : ∀ c ∈ m, c.1 ≠ a) :
    Memory.read (Memory.insert m a w) b = if b = a then w else Memory.read m b := by
  induction m with
  | nil => rfl
  | cons c m ih =>
    obtain ⟨d, u⟩ := c
    have hd : d ≠ a := h (d, u) (by simp)
    have ih := ih fun c hc => h c (by simp [hc])
    by_cases hlt : a < d
    · simp [Memory.insert, hlt, Memory.read]
    · simp only [Memory.insert, hlt, if_false, Memory.read, ih]
      by_cases hb : b = d <;> simp [hb, hd]

theorem Memory.read_filter_ne (m : Memory) (a b : Nat) (h : b ≠ a) :
    Memory.read (m.filter (fun c => c.1 ≠ a)) b = Memory.read m b := by
  induction m with
  | nil => rfl
  | cons c m ih =>
    obtain ⟨d, u⟩ := c
    by_cases hd : d = a
    · have : b ≠ d := by omega
      simp_all [Memory.read]
    · simp_all [Memory.read]

theorem Memory.read_filter_same (m : Memory) (a : Nat) :
    Memory.read (m.filter (fun c => c.1 ≠ a)) a = Memory.base a := by
  induction m with
  | nil => rfl
  | cons c m ih =>
    obtain ⟨d, u⟩ := c
    by_cases hd : d = a
    · simp_all
    · have : a ≠ d := Ne.symm hd
      simp_all [Memory.read]

/-- A write sets its byte and no other (20_memory.md R32), whatever the list's form. -/
theorem Memory.read_write (m : Memory) (a b : Nat) (w : Byte) :
    Memory.read (Memory.write m a w) b = if b = a then w else Memory.read m b := by
  unfold Memory.write
  by_cases hw : w = Memory.base a <;> simp only [hw, if_true, if_false]
  · by_cases hb : b = a
    · simp only [hb, if_true, Memory.read_filter_same]
    · simp only [hb, if_false, Memory.read_filter_ne m a b hb]
  · rw [Memory.read_insert _ _ _ _ (by simp)]
    by_cases hb : b = a
    · simp [hb]
    · simp only [hb, if_false, Memory.read_filter_ne m a b hb]

@[simp] theorem Memory.read_write_same (m : Memory) (a : Nat) (w : Byte) :
    Memory.read (Memory.write m a w) a = w := by simp [Memory.read_write]

theorem Memory.read_write_ne (m : Memory) (a b : Nat) (w : Byte) (h : b ≠ a) :
    Memory.read (Memory.write m a w) b = Memory.read m b := by simp [Memory.read_write, h]

/-- What a list of bytes written from `a` leaves at every address. -/
theorem Memory.read_writeList (m : Memory) (a b : Nat) (ws : List Byte) :
    Memory.read (Memory.writeList m a ws) b =
      if a ≤ b ∧ b < a + ws.length then ws.getD (b - a) 0 else Memory.read m b := by
  induction ws generalizing m a with
  | nil => simp [Memory.writeList]
  | cons w ws ih =>
    rw [Memory.writeList, ih, Memory.read_write]
    simp only [List.length_cons]
    by_cases h1 : b = a
    · subst h1; simp
    · by_cases h2 : a + 1 ≤ b ∧ b < a + 1 + ws.length
      · have h3 : a ≤ b ∧ b < a + (ws.length + 1) := by omega
        have h4 : b - a = (b - (a + 1)) + 1 := by omega
        simp [h2, h3, h4]
      · have h3 : ¬(a ≤ b ∧ b < a + (ws.length + 1)) := by omega
        rw [if_neg h2, if_neg h1, if_neg h3]

/-- An address outside the written range keeps its byte. -/
theorem Memory.read_writeList_outside (m : Memory) (a b : Nat) (ws : List Byte)
    (h : ¬(a ≤ b ∧ b < a + ws.length)) :
    Memory.read (Memory.writeList m a ws) b = Memory.read m b := by
  rw [Memory.read_writeList, if_neg h]

/-! ## Canonical form -/

theorem Memory.mem_insert (m : Memory) (a : Nat) (w : Byte) (c : Host.Cell) :
    c ∈ Memory.insert m a w ↔ c = (a, w) ∨ c ∈ m := by
  induction m with
  | nil => simp [Memory.insert]
  | cons d m ih =>
    obtain ⟨d, u⟩ := d
    by_cases h : a < d
    · simp [Memory.insert, h]
    · simp only [Memory.insert, h, if_false, List.mem_cons, ih]
      tauto

theorem Memory.insert_pairwise (m : Memory) (a : Nat) (w : Byte)
    (hm : m.Pairwise (fun c d => c.1 < d.1)) (ha : ∀ c ∈ m, c.1 ≠ a) :
    (Memory.insert m a w).Pairwise (fun c d => c.1 < d.1) := by
  induction m with
  | nil => simp [Memory.insert]
  | cons d m ih =>
    obtain ⟨d, u⟩ := d
    rw [List.pairwise_cons] at hm
    have hd : d ≠ a := ha (d, u) (by simp)
    by_cases h : a < d
    · simp only [Memory.insert, h, if_true, List.pairwise_cons, List.mem_cons]
      refine ⟨?_, hm⟩
      rintro c (rfl | hc)
      · exact h
      · exact Nat.lt_trans h (hm.1 c hc)
    · simp only [Memory.insert, h, if_false, List.pairwise_cons]
      refine ⟨fun c hc => ?_, ih hm.2 fun c hc => ha c (by simp [hc])⟩
      rcases (Memory.mem_insert m a w c).1 hc with rfl | hc
      · show d < a
        omega
      · exact hm.1 c hc

theorem Memory.wf_nil : Memory.wf [] := by simp [Memory.wf]

/-- A write at an address of MEM keeps the canonical form. -/
theorem Memory.wf_write (m : Memory) (a : Nat) (w : Byte) (hm : Memory.wf m) (ha : a < Config.memSize) :
    Memory.wf (Memory.write m a w) := by
  have hf : Memory.wf (m.filter (fun c => c.1 ≠ a)) :=
    ⟨hm.1.filter _, fun c hc => hm.2 c (List.mem_filter.1 hc).1⟩
  unfold Memory.write
  by_cases hw : w = Memory.base a
  · simpa only [hw, if_true] using hf
  · simp only [hw, if_false]
    refine ⟨Memory.insert_pairwise _ _ _ hf.1 (by simp), fun c hc => ?_⟩
    rcases (Memory.mem_insert _ a w c).1 hc with rfl | hc
    · exact ⟨ha, hw⟩
    · exact hf.2 c hc

/-- Bytes written inside MEM keep the canonical form. -/
theorem Memory.wf_writeList (m : Memory) (a : Nat) (ws : List Byte) (hm : Memory.wf m)
    (ha : a + ws.length ≤ Config.memSize) : Memory.wf (Memory.writeList m a ws) := by
  induction ws generalizing m a with
  | nil => exact hm
  | cons w ws ih =>
    simp only [List.length_cons] at ha
    exact ih _ _ (Memory.wf_write m a w hm (by omega)) (by omega)

end Sys2Proof.Machine
end

