-- ==== Sys2Proof/Laws/State.lean ====
section
/-! SUPPORT. For every state update of the operations: what each field is afterwards, so that no proof unfolds a
record update. -/

namespace Sys2Proof.Machine

/-! ## `setV` -/

@[simp] theorem setV_i (s : State) (x : Nibble) (b : Byte) :
    (setV s x b).i = s.i := rfl
@[simp] theorem setV_pc (s : State) (x : Nibble) (b : Byte) :
    (setV s x b).pc = s.pc := rfl
@[simp] theorem setV_sp (s : State) (x : Nibble) (b : Byte) :
    (setV s x b).sp = s.sp := rfl
@[simp] theorem setV_stack (s : State) (x : Nibble) (b : Byte) :
    (setV s x b).stack = s.stack := rfl
@[simp] theorem setV_mem (s : State) (x : Nibble) (b : Byte) :
    (setV s x b).mem = s.mem := rfl
@[simp] theorem setV_fb (s : State) (x : Nibble) (b : Byte) :
    (setV s x b).fb = s.fb := rfl
@[simp] theorem setV_rf (s : State) (x : Nibble) (b : Byte) :
    (setV s x b).rf = s.rf := rfl
@[simp] theorem setV_dt (s : State) (x : Nibble) (b : Byte) :
    (setV s x b).dt = s.dt := rfl
@[simp] theorem setV_st (s : State) (x : Nibble) (b : Byte) :
    (setV s x b).st = s.st := rfl
@[simp] theorem setV_keys (s : State) (x : Nibble) (b : Byte) :
    (setV s x b).keys = s.keys := rfl
@[simp] theorem setV_draws (s : State) (x : Nibble) (b : Byte) :
    (setV s x b).draws = s.draws := rfl

/-! ## `setFlag` -/

@[simp] theorem setFlag_i (s : State) (f : Bool) :
    (setFlag s f).i = s.i := rfl
@[simp] theorem setFlag_pc (s : State) (f : Bool) :
    (setFlag s f).pc = s.pc := rfl
@[simp] theorem setFlag_sp (s : State) (f : Bool) :
    (setFlag s f).sp = s.sp := rfl
@[simp] theorem setFlag_stack (s : State) (f : Bool) :
    (setFlag s f).stack = s.stack := rfl
@[simp] theorem setFlag_mem (s : State) (f : Bool) :
    (setFlag s f).mem = s.mem := rfl
@[simp] theorem setFlag_fb (s : State) (f : Bool) :
    (setFlag s f).fb = s.fb := rfl
@[simp] theorem setFlag_rf (s : State) (f : Bool) :
    (setFlag s f).rf = s.rf := rfl
@[simp] theorem setFlag_dt (s : State) (f : Bool) :
    (setFlag s f).dt = s.dt := rfl
@[simp] theorem setFlag_st (s : State) (f : Bool) :
    (setFlag s f).st = s.st := rfl
@[simp] theorem setFlag_keys (s : State) (f : Bool) :
    (setFlag s f).keys = s.keys := rfl
@[simp] theorem setFlag_draws (s : State) (f : Bool) :
    (setFlag s f).draws = s.draws := rfl

/-! ## `setVFlag` -/

@[simp] theorem setVFlag_i (s : State) (x : Nibble) (r : Byte × Bool) :
    (setVFlag s x r).i = s.i := rfl
@[simp] theorem setVFlag_pc (s : State) (x : Nibble) (r : Byte × Bool) :
    (setVFlag s x r).pc = s.pc := rfl
@[simp] theorem setVFlag_sp (s : State) (x : Nibble) (r : Byte × Bool) :
    (setVFlag s x r).sp = s.sp := rfl
@[simp] theorem setVFlag_stack (s : State) (x : Nibble) (r : Byte × Bool) :
    (setVFlag s x r).stack = s.stack := rfl
@[simp] theorem setVFlag_mem (s : State) (x : Nibble) (r : Byte × Bool) :
    (setVFlag s x r).mem = s.mem := rfl
@[simp] theorem setVFlag_fb (s : State) (x : Nibble) (r : Byte × Bool) :
    (setVFlag s x r).fb = s.fb := rfl
@[simp] theorem setVFlag_rf (s : State) (x : Nibble) (r : Byte × Bool) :
    (setVFlag s x r).rf = s.rf := rfl
@[simp] theorem setVFlag_dt (s : State) (x : Nibble) (r : Byte × Bool) :
    (setVFlag s x r).dt = s.dt := rfl
@[simp] theorem setVFlag_st (s : State) (x : Nibble) (r : Byte × Bool) :
    (setVFlag s x r).st = s.st := rfl
@[simp] theorem setVFlag_keys (s : State) (x : Nibble) (r : Byte × Bool) :
    (setVFlag s x r).keys = s.keys := rfl
@[simp] theorem setVFlag_draws (s : State) (x : Nibble) (r : Byte × Bool) :
    (setVFlag s x r).draws = s.draws := rfl

/-! ## `loadRegs` -/

@[simp] theorem loadRegs_i (s : State) (n : Nat) :
    (loadRegs s n).i = s.i := rfl
@[simp] theorem loadRegs_pc (s : State) (n : Nat) :
    (loadRegs s n).pc = s.pc := rfl
@[simp] theorem loadRegs_sp (s : State) (n : Nat) :
    (loadRegs s n).sp = s.sp := rfl
@[simp] theorem loadRegs_stack (s : State) (n : Nat) :
    (loadRegs s n).stack = s.stack := rfl
@[simp] theorem loadRegs_mem (s : State) (n : Nat) :
    (loadRegs s n).mem = s.mem := rfl
@[simp] theorem loadRegs_fb (s : State) (n : Nat) :
    (loadRegs s n).fb = s.fb := rfl
@[simp] theorem loadRegs_rf (s : State) (n : Nat) :
    (loadRegs s n).rf = s.rf := rfl
@[simp] theorem loadRegs_dt (s : State) (n : Nat) :
    (loadRegs s n).dt = s.dt := rfl
@[simp] theorem loadRegs_st (s : State) (n : Nat) :
    (loadRegs s n).st = s.st := rfl
@[simp] theorem loadRegs_keys (s : State) (n : Nat) :
    (loadRegs s n).keys = s.keys := rfl
@[simp] theorem loadRegs_draws (s : State) (n : Nat) :
    (loadRegs s n).draws = s.draws := rfl

/-! ## `advance` -/

@[simp] theorem advance_v (s : State) :
    (advance s).v = s.v := rfl
@[simp] theorem advance_i (s : State) :
    (advance s).i = s.i := rfl
@[simp] theorem advance_pc (s : State) :
    (advance s).pc = s.pc + 2 := rfl
@[simp] theorem advance_sp (s : State) :
    (advance s).sp = s.sp := rfl
@[simp] theorem advance_stack (s : State) :
    (advance s).stack = s.stack := rfl
@[simp] theorem advance_mem (s : State) :
    (advance s).mem = s.mem := rfl
@[simp] theorem advance_fb (s : State) :
    (advance s).fb = s.fb := rfl
@[simp] theorem advance_rf (s : State) :
    (advance s).rf = s.rf := rfl
@[simp] theorem advance_dt (s : State) :
    (advance s).dt = s.dt := rfl
@[simp] theorem advance_st (s : State) :
    (advance s).st = s.st := rfl
@[simp] theorem advance_keys (s : State) :
    (advance s).keys = s.keys := rfl
@[simp] theorem advance_draws (s : State) :
    (advance s).draws = s.draws := rfl

/-! ## `rewind` -/

@[simp] theorem rewind_v (s : State) :
    (rewind s).v = s.v := rfl
@[simp] theorem rewind_i (s : State) :
    (rewind s).i = s.i := rfl
@[simp] theorem rewind_pc (s : State) :
    (rewind s).pc = s.pc - 2 := rfl
@[simp] theorem rewind_sp (s : State) :
    (rewind s).sp = s.sp := rfl
@[simp] theorem rewind_stack (s : State) :
    (rewind s).stack = s.stack := rfl
@[simp] theorem rewind_mem (s : State) :
    (rewind s).mem = s.mem := rfl
@[simp] theorem rewind_fb (s : State) :
    (rewind s).fb = s.fb := rfl
@[simp] theorem rewind_rf (s : State) :
    (rewind s).rf = s.rf := rfl
@[simp] theorem rewind_dt (s : State) :
    (rewind s).dt = s.dt := rfl
@[simp] theorem rewind_st (s : State) :
    (rewind s).st = s.st := rfl
@[simp] theorem rewind_keys (s : State) :
    (rewind s).keys = s.keys := rfl
@[simp] theorem rewind_draws (s : State) :
    (rewind s).draws = s.draws := rfl

/-! ## `jumpTo` -/

@[simp] theorem jumpTo_v (s : State) (w : Word) :
    (jumpTo s w).v = s.v := rfl
@[simp] theorem jumpTo_i (s : State) (w : Word) :
    (jumpTo s w).i = s.i := rfl
@[simp] theorem jumpTo_pc (s : State) (w : Word) :
    (jumpTo s w).pc = w := rfl
@[simp] theorem jumpTo_sp (s : State) (w : Word) :
    (jumpTo s w).sp = s.sp := rfl
@[simp] theorem jumpTo_stack (s : State) (w : Word) :
    (jumpTo s w).stack = s.stack := rfl
@[simp] theorem jumpTo_mem (s : State) (w : Word) :
    (jumpTo s w).mem = s.mem := rfl
@[simp] theorem jumpTo_fb (s : State) (w : Word) :
    (jumpTo s w).fb = s.fb := rfl
@[simp] theorem jumpTo_rf (s : State) (w : Word) :
    (jumpTo s w).rf = s.rf := rfl
@[simp] theorem jumpTo_dt (s : State) (w : Word) :
    (jumpTo s w).dt = s.dt := rfl
@[simp] theorem jumpTo_st (s : State) (w : Word) :
    (jumpTo s w).st = s.st := rfl
@[simp] theorem jumpTo_keys (s : State) (w : Word) :
    (jumpTo s w).keys = s.keys := rfl
@[simp] theorem jumpTo_draws (s : State) (w : Word) :
    (jumpTo s w).draws = s.draws := rfl

/-! ## `pushPc` -/

@[simp] theorem pushPc_v (s : State) :
    (pushPc s).v = s.v := rfl
@[simp] theorem pushPc_i (s : State) :
    (pushPc s).i = s.i := rfl
@[simp] theorem pushPc_pc (s : State) :
    (pushPc s).pc = s.pc := rfl
@[simp] theorem pushPc_sp (s : State) :
    (pushPc s).sp = Fin.ofNat 17 (s.sp.val + 1) := rfl
@[simp] theorem pushPc_stack (s : State) :
    (pushPc s).stack = s.stack.setIfInBounds s.sp.val s.pc := rfl
@[simp] theorem pushPc_mem (s : State) :
    (pushPc s).mem = s.mem := rfl
@[simp] theorem pushPc_fb (s : State) :
    (pushPc s).fb = s.fb := rfl
@[simp] theorem pushPc_rf (s : State) :
    (pushPc s).rf = s.rf := rfl
@[simp] theorem pushPc_dt (s : State) :
    (pushPc s).dt = s.dt := rfl
@[simp] theorem pushPc_st (s : State) :
    (pushPc s).st = s.st := rfl
@[simp] theorem pushPc_keys (s : State) :
    (pushPc s).keys = s.keys := rfl
@[simp] theorem pushPc_draws (s : State) :
    (pushPc s).draws = s.draws := rfl

/-! ## `popPc` -/

@[simp] theorem popPc_v (s : State) :
    (popPc s).v = s.v := rfl
@[simp] theorem popPc_i (s : State) :
    (popPc s).i = s.i := rfl
@[simp] theorem popPc_pc (s : State) :
    (popPc s).pc = s.stack[s.sp.val - 1] := rfl
@[simp] theorem popPc_sp (s : State) :
    (popPc s).sp = Fin.ofNat 17 (s.sp.val - 1) := rfl
@[simp] theorem popPc_stack (s : State) :
    (popPc s).stack = s.stack := rfl
@[simp] theorem popPc_mem (s : State) :
    (popPc s).mem = s.mem := rfl
@[simp] theorem popPc_fb (s : State) :
    (popPc s).fb = s.fb := rfl
@[simp] theorem popPc_rf (s : State) :
    (popPc s).rf = s.rf := rfl
@[simp] theorem popPc_dt (s : State) :
    (popPc s).dt = s.dt := rfl
@[simp] theorem popPc_st (s : State) :
    (popPc s).st = s.st := rfl
@[simp] theorem popPc_keys (s : State) :
    (popPc s).keys = s.keys := rfl
@[simp] theorem popPc_draws (s : State) :
    (popPc s).draws = s.draws := rfl

/-! ## `countDraw` -/

@[simp] theorem countDraw_v (s : State) :
    (countDraw s).v = s.v := rfl
@[simp] theorem countDraw_i (s : State) :
    (countDraw s).i = s.i := rfl
@[simp] theorem countDraw_pc (s : State) :
    (countDraw s).pc = s.pc := rfl
@[simp] theorem countDraw_sp (s : State) :
    (countDraw s).sp = s.sp := rfl
@[simp] theorem countDraw_stack (s : State) :
    (countDraw s).stack = s.stack := rfl
@[simp] theorem countDraw_mem (s : State) :
    (countDraw s).mem = s.mem := rfl
@[simp] theorem countDraw_fb (s : State) :
    (countDraw s).fb = s.fb := rfl
@[simp] theorem countDraw_rf (s : State) :
    (countDraw s).rf = s.rf := rfl
@[simp] theorem countDraw_dt (s : State) :
    (countDraw s).dt = s.dt := rfl
@[simp] theorem countDraw_st (s : State) :
    (countDraw s).st = s.st := rfl
@[simp] theorem countDraw_keys (s : State) :
    (countDraw s).keys = s.keys := rfl
@[simp] theorem countDraw_draws (s : State) :
    (countDraw s).draws = s.draws + 1 := rfl

/-! ## `tick` -/

@[simp] theorem tick_v (s : State) :
    (tick s).v = s.v := rfl
@[simp] theorem tick_i (s : State) :
    (tick s).i = s.i := rfl
@[simp] theorem tick_pc (s : State) :
    (tick s).pc = s.pc := rfl
@[simp] theorem tick_sp (s : State) :
    (tick s).sp = s.sp := rfl
@[simp] theorem tick_stack (s : State) :
    (tick s).stack = s.stack := rfl
@[simp] theorem tick_mem (s : State) :
    (tick s).mem = s.mem := rfl
@[simp] theorem tick_fb (s : State) :
    (tick s).fb = s.fb := rfl
@[simp] theorem tick_rf (s : State) :
    (tick s).rf = s.rf := rfl
@[simp] theorem tick_dt (s : State) :
    (tick s).dt = countDown s.dt := rfl
@[simp] theorem tick_st (s : State) :
    (tick s).st = countDown s.st := rfl
@[simp] theorem tick_keys (s : State) :
    (tick s).keys = s.keys := rfl
@[simp] theorem tick_draws (s : State) :
    (tick s).draws = s.draws := rfl

/-! ## `setKey` -/

@[simp] theorem setKey_v (k : Fin 16) (b : Bool) (s : State) :
    (setKey k b s).v = s.v := rfl
@[simp] theorem setKey_i (k : Fin 16) (b : Bool) (s : State) :
    (setKey k b s).i = s.i := rfl
@[simp] theorem setKey_pc (k : Fin 16) (b : Bool) (s : State) :
    (setKey k b s).pc = s.pc := rfl
@[simp] theorem setKey_sp (k : Fin 16) (b : Bool) (s : State) :
    (setKey k b s).sp = s.sp := rfl
@[simp] theorem setKey_stack (k : Fin 16) (b : Bool) (s : State) :
    (setKey k b s).stack = s.stack := rfl
@[simp] theorem setKey_mem (k : Fin 16) (b : Bool) (s : State) :
    (setKey k b s).mem = s.mem := rfl
@[simp] theorem setKey_fb (k : Fin 16) (b : Bool) (s : State) :
    (setKey k b s).fb = s.fb := rfl
@[simp] theorem setKey_rf (k : Fin 16) (b : Bool) (s : State) :
    (setKey k b s).rf = s.rf := rfl
@[simp] theorem setKey_dt (k : Fin 16) (b : Bool) (s : State) :
    (setKey k b s).dt = s.dt := rfl
@[simp] theorem setKey_st (k : Fin 16) (b : Bool) (s : State) :
    (setKey k b s).st = s.st := rfl
@[simp] theorem setKey_draws (k : Fin 16) (b : Bool) (s : State) :
    (setKey k b s).draws = s.draws := rfl

/-! ## `clearRedraw` -/

@[simp] theorem clearRedraw_v (s : State) :
    (clearRedraw s).v = s.v := rfl
@[simp] theorem clearRedraw_i (s : State) :
    (clearRedraw s).i = s.i := rfl
@[simp] theorem clearRedraw_pc (s : State) :
    (clearRedraw s).pc = s.pc := rfl
@[simp] theorem clearRedraw_sp (s : State) :
    (clearRedraw s).sp = s.sp := rfl
@[simp] theorem clearRedraw_stack (s : State) :
    (clearRedraw s).stack = s.stack := rfl
@[simp] theorem clearRedraw_mem (s : State) :
    (clearRedraw s).mem = s.mem := rfl
@[simp] theorem clearRedraw_fb (s : State) :
    (clearRedraw s).fb = s.fb := rfl
@[simp] theorem clearRedraw_rf (s : State) :
    (clearRedraw s).rf = false := rfl
@[simp] theorem clearRedraw_dt (s : State) :
    (clearRedraw s).dt = s.dt := rfl
@[simp] theorem clearRedraw_st (s : State) :
    (clearRedraw s).st = s.st := rfl
@[simp] theorem clearRedraw_keys (s : State) :
    (clearRedraw s).keys = s.keys := rfl
@[simp] theorem clearRedraw_draws (s : State) :
    (clearRedraw s).draws = s.draws := rfl

/-! ## `skipIf` -/

@[simp] theorem skipIf_v (c : Bool) (s : State) : (skipIf c s).v = s.v := by
  cases c <;> rfl
@[simp] theorem skipIf_i (c : Bool) (s : State) : (skipIf c s).i = s.i := by
  cases c <;> rfl
@[simp] theorem skipIf_pc (c : Bool) (s : State) : (skipIf c s).pc = if c then s.pc + 2 else s.pc := by
  cases c <;> rfl
@[simp] theorem skipIf_sp (c : Bool) (s : State) : (skipIf c s).sp = s.sp := by
  cases c <;> rfl
@[simp] theorem skipIf_stack (c : Bool) (s : State) : (skipIf c s).stack = s.stack := by
  cases c <;> rfl
@[simp] theorem skipIf_mem (c : Bool) (s : State) : (skipIf c s).mem = s.mem := by
  cases c <;> rfl
@[simp] theorem skipIf_fb (c : Bool) (s : State) : (skipIf c s).fb = s.fb := by
  cases c <;> rfl
@[simp] theorem skipIf_rf (c : Bool) (s : State) : (skipIf c s).rf = s.rf := by
  cases c <;> rfl
@[simp] theorem skipIf_dt (c : Bool) (s : State) : (skipIf c s).dt = s.dt := by
  cases c <;> rfl
@[simp] theorem skipIf_st (c : Bool) (s : State) : (skipIf c s).st = s.st := by
  cases c <;> rfl
@[simp] theorem skipIf_keys (c : Bool) (s : State) : (skipIf c s).keys = s.keys := by
  cases c <;> rfl
@[simp] theorem skipIf_draws (c : Bool) (s : State) : (skipIf c s).draws = s.draws := by
  cases c <;> rfl

end Sys2Proof.Machine
end

