-- ==== Sys2Proof/Laws/Ops.lean ====
section
/-! SUPPORT. One lemma for each shared operation that says what it does. -/

namespace Sys2Proof.Machine

/-! ## Faults -/

/-- `faultOr` answers `t` exactly when there is no fault. -/
@[simp] theorem faultOr_eq_next (f : Option Fault) (t u : State) :
    faultOr f t = .next u ↔ f = none ∧ t = u := by
  cases f <;> simp [faultOr]

@[simp] theorem faultOr_eq_fault (f : Option Fault) (t : State) (g : Fault) :
    faultOr f t = .fault g ↔ f = some g := by
  cases f <;> simp [faultOr]

@[simp] theorem faultOr_ne_refused (f : Option Fault) (t : State) (r : Refusal) :
    faultOr f t ≠ .refused r := by
  cases f <;> simp [faultOr]

@[simp] theorem faultOr_none (t : State) : faultOr none t = .next t := rfl

@[simp] theorem faultOr_some (f : Fault) (t : State) : faultOr (some f) t = .fault f := rfl

theorem rangeFault_eq_none (a cnt : Nat) : rangeFault a cnt = none ↔ cnt = 0 ∨ a + cnt ≤ 0x1000 := by
  unfold rangeFault
  split <;> simp_all [Config.memSize]

theorem rangeFault_of_out (a cnt : Nat) (h0 : cnt ≠ 0) (h : 0x1000 < a + cnt) :
    rangeFault a cnt = some (.memRange (max a 0x1000)) := by
  have : ¬(cnt = 0 ∨ a + cnt ≤ 0x1000) := by omega
  simp only [rangeFault, Config.memSize, this, if_false]

theorem pushFault_eq_none (s : State) : pushFault s = none ↔ s.sp.val ≠ 16 := by
  unfold pushFault
  split <;> simp_all

theorem popFault_eq_none (s : State) : popFault s = none ↔ s.sp.val ≠ 0 := by
  unfold popFault
  split <;> simp_all

theorem keyFault_eq_none (k : Byte) : keyFault k = none ↔ k.toNat ≤ 15 := by
  unfold keyFault
  split <;> simp_all

theorem pushFault_eq_some (s : State) (f : Fault) :
    pushFault s = some f ↔ s.sp.val = 16 ∧ f = .stackOverflow 16 := by
  unfold pushFault
  split <;> rename_i h <;> simp [h, eq_comm]

theorem popFault_eq_some (s : State) (f : Fault) :
    popFault s = some f ↔ s.sp.val = 0 ∧ f = .stackUnderflow 0 := by
  unfold popFault
  split <;> rename_i h <;> simp [h, eq_comm]

theorem keyFault_eq_some (k : Byte) (f : Fault) :
    keyFault k = some f ↔ 15 < k.toNat ∧ f = .keyIndexRange k.toNat := by
  unfold keyFault
  split <;> rename_i h <;> simp [h, eq_comm]

theorem fetchFault_eq_none (s : State) : fetchFault s = none ↔ s.pc.toNat ≤ 0xFFE := by
  rw [fetchFault, rangeFault_eq_none]
  omega

/-! ## Registers -/

/-- A register write sets its register and no other. -/
@[simp] theorem getV_setV (s : State) (x z : Nibble) (b : Byte) :
    getV (setV s x b) z = if z = x then b else getV s z := by
  simp only [getV, setV, Vector.get_eq_getElem, Vector.getElem_set, BitVec.val_toFin]
  by_cases h : z = x
  · simp [h]
  · have : x.toNat ≠ z.toNat := fun e => h (BitVec.eq_of_toNat_eq e.symm)
    simp [h, this]

@[simp] theorem getV_setFlag (s : State) (f : Bool) (z : Nibble) :
    getV (setFlag s f) z = if z = 0xF#4 then (if f then 1 else 0) else getV s z := by
  simp [setFlag]

/-- Result and flag: VF is the flag, V[x] the result when x is not F, the rest unchanged. -/
theorem getV_setVFlag (s : State) (x z : Nibble) (r : Byte × Bool) :
    getV (setVFlag s x r) z =
      if z = 0xF#4 then (if r.2 then 1 else 0) else if z = x then r.1 else getV s z := by
  simp [setVFlag]

/-- A register write is a change of `v` alone. -/
theorem setV_eq (s : State) (x : Nibble) (b : Byte) : setV s x b = { s with v := (setV s x b).v } := rfl

theorem setFlag_eq (s : State) (f : Bool) : setFlag s f = { s with v := (setFlag s f).v } := rfl

theorem setVFlag_eq (s : State) (x : Nibble) (r : Byte × Bool) :
    setVFlag s x r = { s with v := (setVFlag s x r).v } := rfl

/-- Two register files with the same registers are the same. -/
theorem v_ext (s t : State) (h : ∀ z, getV s z = getV t z) : s.v = t.v := by
  apply Vector.ext
  intro k hk
  have := h (BitVec.ofNat 4 k)
  simpa [getV, Vector.get_eq_getElem, Nat.mod_eq_of_lt hk] using this

@[simp] theorem getV_advance (s : State) (z : Nibble) : getV (advance s) z = getV s z := rfl
@[simp] theorem getV_tick (s : State) (z : Nibble) : getV (tick s) z = getV s z := rfl
@[simp] theorem getV_countDraw (s : State) (z : Nibble) : getV (countDraw s) z = getV s z := rfl

/-- The block load: V[k] from I + k below the count, the rest unchanged. -/
theorem getV_loadRegs (s : State) (n : Nat) (z : Nibble) :
    getV (loadRegs s n) z =
      if z.toNat < n then Memory.read s.mem (s.i.toNat + z.toNat) else getV s z := by
  simp [getV, loadRegs, Vector.get_eq_getElem]

@[simp] theorem length_regList (s : State) (n : Nat) (h : n ≤ 16) : (regList s n).length = n := by
  simp [regList, h]

/-- The k-th byte of a register list is V[k]. -/
theorem getD_regList (s : State) (n k : Nat) (hk : k < n) (hn : n ≤ 16) :
    (regList s n).getD k 0 = getV s (BitVec.ofNat 4 k) := by
  have h16 : k < 16 := by omega
  simp [regList, getV, Vector.get_eq_getElem, hk, Nat.mod_eq_of_lt h16, h16]

/-! ## Framebuffer -/

/-- A toggle flips its pixel and no other. -/
theorem pixel_togglePixel (fb : Framebuffer) (x px : Fin 64) (y py : Fin 32) :
    pixel (togglePixel fb x y) px py = (pixel fb px py ^^ decide (px = x ∧ py = y)) := by
  simp only [pixel, togglePixel, Vector.get_eq_getElem, Vector.getElem_set]
  by_cases hy : y = py
  · subst hy
    simp only [if_true, BitVec.getLsbD_xor, BitVec.getLsbD_twoPow, and_true]
    by_cases hx : px = x
    · subst hx; simp
    · have : x.val ≠ px.val := fun e => hx (Fin.ext e.symm)
      simp [hx, this]
  · have h1 : y.val ≠ py.val := fun e => hy (Fin.ext e)
    have h2 : py ≠ y := fun e => hy e.symm
    simp [h1, h2]

@[simp] theorem pixel_clearedFb (x : Fin 64) (y : Fin 32) : pixel clearedFb x y = false := by
  simp [pixel, clearedFb, Vector.get_eq_getElem]

/-- Two framebuffers with the same pixels are the same. -/
theorem fb_ext (a b : Framebuffer) (h : ∀ x y, pixel a x y = pixel b x y) : a = b := by
  apply Vector.ext
  intro y hy
  apply BitVec.eq_of_getLsbD_eq
  intro x hx
  exact h ⟨x, hx⟩ ⟨y, hy⟩

/-! ## Keys -/

/-- A key read is the entry of the key state. -/
theorem keyDown_eq (s : State) (k : Fin 16) : keyDown s k.val = s.keys.get k := by
  simp [keyDown, Vector.get_eq_getElem]

/-- No key found means every key is up. -/
theorem lowestKey_eq_none (s : State) : lowestKey s = none ↔ ∀ k : Fin 16, s.keys.get k = false := by
  simp only [lowestKey, List.find?_eq_none, List.mem_range, Bool.not_eq_true]
  refine ⟨fun h k => ?_, fun h k hk => ?_⟩
  · rw [← keyDown_eq]; exact h k.val k.isLt
  · exact (keyDown_eq s ⟨k, hk⟩).trans (h ⟨k, hk⟩)

/-- The key found is the lowest one pressed. -/
theorem lowestKey_eq_some (s : State) (k : Nat) :
    lowestKey s = some k ↔ k < 16 ∧ keyDown s k = true ∧ ∀ j, j < k → keyDown s j = false := by
  rw [lowestKey, List.find?_range_eq_some]
  simp
  tauto

/-! ## The tick -/

/-- A countdown is the subtraction of 1 that stops at 0. -/
theorem toNat_countDown (t : Byte) : (countDown t).toNat = t.toNat - 1 := by
  unfold countDown
  split
  · simp_all
  · rename_i h
    have h0 : t.toNat ≠ 0 := fun e => h (BitVec.eq_of_toNat_eq e)
    have := t.isLt
    rw [BitVec.toNat_sub]
    simp
    omega

theorem toneStart_mem_tickEvents (s : State) : Event.toneStart ∈ tickEvents s ↔ s.st = 1 := by
  unfold tickEvents
  split <;> simp_all

theorem unknownOpcode_not_mem_tickEvents (s : State) (w a : Word) :
    Event.unknownOpcode w a ∉ tickEvents s := by
  unfold tickEvents
  split <;> simp

end Sys2Proof.Machine
end

