-- ==== Sys2Proof/Laws/Draw.lean ====
section
/-! SUPPORT. The sprite engine: drawing is plotting a list of distinct pixels, so every pixel of the sprite flips once
and no other changes (44_display.md R122). -/

namespace Sys2Proof.Machine

/-- Plot a list of pixels. -/
def plotAll (c : Canvas) (ps : List (Fin 64 × Fin 32)) : Canvas := ps.foldl (fun c p => plot c p.1 p.2) c

/-- The pixels of one sprite row's 1 bits. -/
def rowPixels (b : Byte) (cx y : Nat) : List (Fin 64 × Fin 32) :=
  ((List.range 8).filter fun col => b.getLsbD (7 - col)).map
    fun col => (Fin.ofNat 64 (cx + col), Fin.ofNat 32 y)

/-- The pixels of a sprite's 1 bits. -/
def spritePixels (m : Memory) (a cx cy n : Nat) : List (Fin 64 × Fin 32) :=
  (List.range n).flatMap fun row => rowPixels (Memory.read m (a + row)) cx (cy + row)

theorem drawRow_eq_plotAll (b : Byte) (cx y : Nat) (c : Canvas) :
    drawRow b cx y c = plotAll c (rowPixels b cx y) := by
  simp only [drawRow, plotAll, rowPixels, List.foldl_map, List.foldl_filter]

theorem drawSprite_eq_plotAll (m : Memory) (a cx cy n : Nat) (c : Canvas) :
    drawSprite m a cx cy n c = plotAll c (spritePixels m a cx cy n) := by
  simp only [drawSprite, drawRow_eq_plotAll, plotAll, spritePixels, List.foldl_flatMap]

/-- Distinct pixels plotted: each flips, the rest stay; the collision is a set pixel among them. -/
theorem plotAll_spec (c : Canvas) (ps : List (Fin 64 × Fin 32)) (hp : ps.Nodup) :
    (∀ px py, pixel (plotAll c ps).fb px py = (pixel c.fb px py ^^ decide ((px, py) ∈ ps))) ∧
    ((plotAll c ps).collision = true ↔
      c.collision = true ∨ ∃ p ∈ ps, pixel c.fb p.1 p.2 = true) := by
  induction ps generalizing c with
  | nil => simp [plotAll]
  | cons p ps ih =>
    rw [List.nodup_cons] at hp
    obtain ⟨ihfb, ihcol⟩ := ih (plot c p.1 p.2) hp.2
    have hrec : plotAll c (p :: ps) = plotAll (plot c p.1 p.2) ps := rfl
    have hplot : ∀ px py, pixel (plot c p.1 p.2).fb px py =
        (pixel c.fb px py ^^ decide ((px, py) = p)) := fun px py => by
      rw [plot, pixel_togglePixel]
      simp [Prod.ext_iff]
    refine ⟨fun px py => ?_, ?_⟩
    · rw [hrec, ihfb, hplot]
      by_cases h1 : (px, py) = p
      · have h2 : (px, py) ∉ ps := h1 ▸ hp.1
        simp [h1, hp.1]
      · simp [h1]
    · rw [hrec, ihcol]
      have hother : ∀ q ∈ ps, pixel (plot c p.1 p.2).fb q.1 q.2 = pixel c.fb q.1 q.2 := fun q hq => by
        have : q ≠ p := fun e => hp.1 (e ▸ hq)
        simp [hplot, this]
      have hc : (plot c p.1 p.2).collision = (c.collision || pixel c.fb p.1 p.2) := rfl
      rw [hc, Bool.or_eq_true, or_assoc]
      refine or_congr_right ?_
      constructor
      · rintro (h | ⟨q, hq, h⟩)
        · exact ⟨p, by simp, h⟩
        · exact ⟨q, by simp [hq], hother q hq ▸ h⟩
      · rintro ⟨q, hq, h⟩
        rcases List.mem_cons.1 hq with rfl | hq
        · exact .inl h
        · exact .inr ⟨q, hq, (hother q hq).symm ▸ h⟩

theorem mem_rowPixels (b : Byte) (cx y : Nat) (p : Fin 64 × Fin 32) :
    p ∈ rowPixels b cx y ↔
      ∃ col, col < 8 ∧ p.1.val = (cx + col) % 64 ∧ p.2.val = y % 32 ∧ b.getLsbD (7 - col) = true := by
  simp only [rowPixels, List.mem_map, List.mem_filter, List.mem_range, Prod.ext_iff, Fin.ext_iff, Fin.val_ofNat]
  constructor
  · rintro ⟨col, ⟨h1, h2⟩, h3, h4⟩
    exact ⟨col, h1, h3.symm, h4.symm, h2⟩
  · rintro ⟨col, h1, h3, h4, h2⟩
    exact ⟨col, ⟨h1, h2⟩, h3.symm, h4.symm⟩

/-- The pixels plotted are those where the sprite has a 1 bit. -/
theorem mem_spritePixels (m : Memory) (a cx cy n : Nat) (px : Fin 64) (py : Fin 32) :
    (px, py) ∈ spritePixels m a cx cy n ↔ spriteBit m a cx cy n px py := by
  simp only [spritePixels, List.mem_flatMap, List.mem_range, mem_rowPixels, spriteBit]
  constructor
  · rintro ⟨row, hr, col, hc, h1, h2, h3⟩
    exact ⟨row, col, hr, hc, h1, h2, h3⟩
  · rintro ⟨row, col, hr, hc, h1, h2, h3⟩
    exact ⟨row, hr, col, hc, h1, h2, h3⟩

/-- Every pixel is visited at most once: 8 columns are distinct mod 64, fewer than 32 rows distinct mod 32. -/
theorem spritePixels_nodup (m : Memory) (a cx cy n : Nat) (hn : n < 32) :
    (spritePixels m a cx cy n).Nodup := by
  rw [spritePixels, List.nodup_flatMap]
  refine ⟨fun row _ => ?_, ?_⟩
  · rw [rowPixels, List.nodup_map_iff_inj_on (List.nodup_range.filter _)]
    intro c hc d hd h
    simp only [List.mem_filter, List.mem_range] at hc hd
    simp only [Prod.ext_iff, Fin.ext_iff, Fin.val_ofNat] at h
    omega
  · refine List.Pairwise.imp_of_mem ?_ (List.nodup_range (n := n))
    intro r q hr hq hne p hp hp'
    rw [mem_rowPixels] at hp hp'
    obtain ⟨_, _, _, h1, _⟩ := hp
    obtain ⟨_, _, _, h2, _⟩ := hp'
    rw [List.mem_range] at hr hq
    have : (cy + r) % 32 = (cy + q) % 32 := h1 ▸ h2
    omega

/-- The whole draw: a pixel flips exactly where the sprite has a 1 bit, and the collision is a set pixel under one. -/
theorem drawSprite_spec (m : Memory) (a cx cy n : Nat) (fb : Framebuffer) (hn : n < 32) :
    (∀ px py, (spriteBit m a cx cy n px py →
        pixel (drawSprite m a cx cy n ⟨fb, false⟩).fb px py = !pixel fb px py) ∧
      (¬spriteBit m a cx cy n px py →
        pixel (drawSprite m a cx cy n ⟨fb, false⟩).fb px py = pixel fb px py)) ∧
    ((drawSprite m a cx cy n ⟨fb, false⟩).collision = true ↔
      ∃ px py, spriteBit m a cx cy n px py ∧ pixel fb px py = true) := by
  rw [drawSprite_eq_plotAll]
  obtain ⟨h1, h2⟩ := plotAll_spec ⟨fb, false⟩ _ (spritePixels_nodup m a cx cy n hn)
  refine ⟨fun px py => ⟨fun h => ?_, fun h => ?_⟩, ?_⟩
  · rw [h1, decide_eq_true ((mem_spritePixels ..).2 h), Bool.xor_true]
  · rw [h1, decide_eq_false (mt (mem_spritePixels ..).1 h), Bool.xor_false]
  · rw [h2]
    simp only [Bool.false_eq_true, false_or]
    constructor
    · rintro ⟨⟨px, py⟩, hp, h⟩
      exact ⟨px, py, (mem_spritePixels ..).1 hp, h⟩
    · rintro ⟨px, py, hp, h⟩
      exact ⟨(px, py), (mem_spritePixels ..).2 hp, h⟩

/-- `DXYN`, its drawing named once: the range check, then framebuffer, RF and VF. -/
theorem execDrw_eq (x y n : Nibble) (s : State) :
    execDrw x y n s =
      faultOr (rangeFault s.i.toNat n.toNat)
        (setFlag
          { s with
            fb := (drawSprite s.mem s.i.toNat (getV s x).toNat (getV s y).toNat n.toNat ⟨s.fb, false⟩).fb
            rf := true }
          (drawSprite s.mem s.i.toNat (getV s x).toNat (getV s y).toNat n.toNat ⟨s.fb, false⟩).collision) := rfl

end Sys2Proof.Machine
end

