-- ==== Sys2Proof/Laws/Exec.lean ====
section
/-! SUPPORT. The execute phase said once: every instruction is a check followed by a total effect
(60_exceptions.md R144: the check comes before the first write). -/

namespace Sys2Proof.Machine

/-- The check of an instruction: stack, key index, or the range of the bytes it touches. -/
def faultOf (i : Instr) (s : State) : Option Fault :=
  match i with
  | .call _ => pushFault s
  | .ret => popFault s
  | .skp x | .sknp x => keyFault (getV s x)
  | i => rangeFault s.i.toNat (touchCount i)

/-- The canvas a `DXYN` leaves. -/
def drawn (s : State) (x y n : Nibble) : Canvas :=
  drawSprite s.mem s.i.toNat (getV s x).toNat (getV s y).toNat n.toNat ⟨s.fb, false⟩

/-- The state an instruction leaves when its check passes. -/
def effectOf (i : Instr) (s : State) : State :=
  match i with
  | .cls => { s with fb := clearedFb, rf := true }
  | .ret => popPc s
  | .jp nnn => jumpTo s (addrOperand nnn)
  | .call nnn => jumpTo (pushPc s) (addrOperand nnn)
  | .seImm x nn => skipIf (getV s x == nn) s
  | .sneImm x nn => skipIf (getV s x != nn) s
  | .seReg x y => skipIf (getV s x == getV s y) s
  | .ldImm x nn => setV s x nn
  | .addImm x nn => setV s x (addCarry (getV s x) nn).1
  | .ldReg x y => setV s x (getV s y)
  | .orReg x y => setV s x (getV s x ||| getV s y)
  | .andReg x y => setV s x (getV s x &&& getV s y)
  | .xorReg x y => setV s x (getV s x ^^^ getV s y)
  | .addReg x y => setVFlag s x (addCarry (getV s x) (getV s y))
  | .subReg x y => setVFlag s x (subBorrow (getV s x) (getV s y))
  | .shr x => setVFlag s x (shiftRight (getV s x))
  | .subnReg x y => setVFlag s x (subBorrow (getV s y) (getV s x))
  | .shl x => setVFlag s x (shiftLeft (getV s x))
  | .sneReg x y => skipIf (getV s x != getV s y) s
  | .ldI nnn => { s with i := addrOperand nnn }
  | .jpV0 nnn => jumpTo s (addrPlusV0 nnn s)
  | .rnd x nn => countDraw (setV s x (rndOf s &&& nn))
  | .drw x y n => setFlag { s with fb := (drawn s x y n).fb, rf := true } (drawn s x y n).collision
  | .skp x => skipIf (keyDown s (getV s x).toNat) s
  | .sknp x => skipIf (!keyDown s (getV s x).toNat) s
  | .ldVxDt x => setV s x s.dt
  | .ldVxK x =>
    match lowestKey s with
    | some k => setV s x (BitVec.ofNat 8 k)
    | none => rewind s
  | .ldDtVx x => { s with dt := getV s x }
  | .ldStVx x => { s with st := getV s x }
  | .addI x => setFlag { s with i := (addIndex s.i (getV s x)).1 } (addIndex s.i (getV s x)).2
  | .ldF x => { s with i := glyphAddr (getV s x) }
  | .ldB x => { s with mem := Memory.writeList s.mem s.i.toNat (bcdDigits (getV s x)) }
  | .stRegs x => { s with mem := Memory.writeList s.mem s.i.toNat (regList s (regCount x)) }
  | .ldRegs x => loadRegs s (regCount x)

/-- The execute phase is the check, then the effect. -/
theorem exec_eq (i : Instr) (s : State) : exec i s = faultOr (faultOf i s) (effectOf i s) := by
  cases i
  case ldVxK x =>
    show execLdVxK x s = _
    unfold execLdVxK
    cases h : lowestKey s <;> simp [faultOf, effectOf, h, rangeFault, touchCount]
  all_goals rfl

/-- An instruction completes exactly when its check passes, and leaves its effect. -/
theorem exec_eq_next (i : Instr) (s t : State) : exec i s = .next t ↔ faultOf i s = none ∧ effectOf i s = t := by
  rw [exec_eq, faultOr_eq_next]

/-- An instruction faults exactly as its check says. -/
theorem exec_eq_fault (i : Instr) (s : State) (f : Fault) : exec i s = .fault f ↔ faultOf i s = some f := by
  rw [exec_eq, faultOr_eq_fault]

/-- No instruction is refused. -/
theorem exec_ne_refused (i : Instr) (s : State) (r : Refusal) : exec i s ≠ .refused r := by
  rw [exec_eq]
  exact faultOr_ne_refused _ _ _

/-- The check passes exactly when the program's duty for the instruction is kept. -/
theorem faultOf_eq_none (i : Instr) (s : State) : faultOf i s = none ↔ Duty i s := by
  cases i <;>
    simp [faultOf, Duty, touchCount, InMemory, pushFault_eq_none, popFault_eq_none, keyFault_eq_none,
      rangeFault_eq_none]

end Sys2Proof.Machine
end

