-- ==== Sys2Proof/Laws/PerInstr.lean ====
section
/-! SUPPORT. For every instruction: its operands are in range and its word is in its row of the table of R53. -/

namespace Sys2Proof.Laws.EncodedInRow

/-- The instruction is well formed and its encoding matches the mask and match columns of its row. -/
def Statement (i : Instr) : Prop := i.wellFormed = true ∧ (rowOf i).holds (encode i) = true

theorem of_row {i : Instr} (h1 : i.wellFormed = true)
    (h2 : encode i &&& (rowOf i).mask = (rowOf i).value) : Statement i :=
  ⟨h1, by rw [Row.holds, h2, beq_self_eq_true]⟩

theorem regInRange_toNat (x : Nibble) : regInRange x.toNat = true := decide_eq_true x.isLt
theorem rowsInRange_toNat (n : Nibble) : rowsInRange n.toNat = true := decide_eq_true n.isLt
theorem imm8InRange_toNat (nn : Byte) : imm8InRange nn.toNat = true := decide_eq_true nn.isLt
theorem addrInRange_toNat (nnn : Addr12) : addrInRange nnn.toNat = true := decide_eq_true nnn.isLt

theorem cls : Statement .cls :=
  of_row rfl (by simp [encode, rowOf, and_mask_FFFF])

theorem ret : Statement .ret :=
  of_row rfl (by simp [encode, rowOf, and_mask_FFFF])

theorem jp (nnn : Addr12) : Statement (.jp nnn) :=
  of_row (addrInRange_toNat nnn) (by simp [encode, rowOf, and_mask_F000])

theorem call (nnn : Addr12) : Statement (.call nnn) :=
  of_row (addrInRange_toNat nnn) (by simp [encode, rowOf, and_mask_F000])

theorem seImm (x : Nibble) (nn : Byte) : Statement (.seImm x nn) :=
  of_row (by simp [Instr.wellFormed, regInRange_toNat, imm8InRange_toNat]) (by simp [encode, rowOf, and_mask_F000])

theorem sneImm (x : Nibble) (nn : Byte) : Statement (.sneImm x nn) :=
  of_row (by simp [Instr.wellFormed, regInRange_toNat, imm8InRange_toNat]) (by simp [encode, rowOf, and_mask_F000])

theorem seReg (x y : Nibble) : Statement (.seReg x y) :=
  of_row (by simp [Instr.wellFormed, regInRange_toNat]) (by simp [encode, rowOf, and_mask_F00F])

theorem ldImm (x : Nibble) (nn : Byte) : Statement (.ldImm x nn) :=
  of_row (by simp [Instr.wellFormed, regInRange_toNat, imm8InRange_toNat]) (by simp [encode, rowOf, and_mask_F000])

theorem addImm (x : Nibble) (nn : Byte) : Statement (.addImm x nn) :=
  of_row (by simp [Instr.wellFormed, regInRange_toNat, imm8InRange_toNat]) (by simp [encode, rowOf, and_mask_F000])

theorem ldReg (x y : Nibble) : Statement (.ldReg x y) :=
  of_row (by simp [Instr.wellFormed, regInRange_toNat]) (by simp [encode, rowOf, and_mask_F00F])

theorem orReg (x y : Nibble) : Statement (.orReg x y) :=
  of_row (by simp [Instr.wellFormed, regInRange_toNat]) (by simp [encode, rowOf, and_mask_F00F])

theorem andReg (x y : Nibble) : Statement (.andReg x y) :=
  of_row (by simp [Instr.wellFormed, regInRange_toNat]) (by simp [encode, rowOf, and_mask_F00F])

theorem xorReg (x y : Nibble) : Statement (.xorReg x y) :=
  of_row (by simp [Instr.wellFormed, regInRange_toNat]) (by simp [encode, rowOf, and_mask_F00F])

theorem addReg (x y : Nibble) : Statement (.addReg x y) :=
  of_row (by simp [Instr.wellFormed, regInRange_toNat]) (by simp [encode, rowOf, and_mask_F00F])

theorem subReg (x y : Nibble) : Statement (.subReg x y) :=
  of_row (by simp [Instr.wellFormed, regInRange_toNat]) (by simp [encode, rowOf, and_mask_F00F])

theorem shr (x : Nibble) : Statement (.shr x) :=
  of_row (regInRange_toNat x) (by simp [encode, rowOf, and_mask_F00F])

theorem subnReg (x y : Nibble) : Statement (.subnReg x y) :=
  of_row (by simp [Instr.wellFormed, regInRange_toNat]) (by simp [encode, rowOf, and_mask_F00F])

theorem shl (x : Nibble) : Statement (.shl x) :=
  of_row (regInRange_toNat x) (by simp [encode, rowOf, and_mask_F00F])

theorem sneReg (x y : Nibble) : Statement (.sneReg x y) :=
  of_row (by simp [Instr.wellFormed, regInRange_toNat]) (by simp [encode, rowOf, and_mask_F00F])

theorem ldI (nnn : Addr12) : Statement (.ldI nnn) :=
  of_row (addrInRange_toNat nnn) (by simp [encode, rowOf, and_mask_F000])

theorem jpV0 (nnn : Addr12) : Statement (.jpV0 nnn) :=
  of_row (addrInRange_toNat nnn) (by simp [encode, rowOf, and_mask_F000])

theorem rnd (x : Nibble) (nn : Byte) : Statement (.rnd x nn) :=
  of_row (by simp [Instr.wellFormed, regInRange_toNat, imm8InRange_toNat]) (by simp [encode, rowOf, and_mask_F000])

theorem drw (x y n : Nibble) : Statement (.drw x y n) :=
  of_row (by simp [Instr.wellFormed, regInRange_toNat, rowsInRange_toNat]) (by simp [encode, rowOf, and_mask_F000])

theorem skp (x : Nibble) : Statement (.skp x) :=
  of_row (regInRange_toNat x) (by simp [encode, rowOf, and_mask_F0FF])

theorem sknp (x : Nibble) : Statement (.sknp x) :=
  of_row (regInRange_toNat x) (by simp [encode, rowOf, and_mask_F0FF])

theorem ldVxDt (x : Nibble) : Statement (.ldVxDt x) :=
  of_row (regInRange_toNat x) (by simp [encode, rowOf, and_mask_F0FF])

theorem ldVxK (x : Nibble) : Statement (.ldVxK x) :=
  of_row (regInRange_toNat x) (by simp [encode, rowOf, and_mask_F0FF])

theorem ldDtVx (x : Nibble) : Statement (.ldDtVx x) :=
  of_row (regInRange_toNat x) (by simp [encode, rowOf, and_mask_F0FF])

theorem ldStVx (x : Nibble) : Statement (.ldStVx x) :=
  of_row (regInRange_toNat x) (by simp [encode, rowOf, and_mask_F0FF])

theorem addI (x : Nibble) : Statement (.addI x) :=
  of_row (regInRange_toNat x) (by simp [encode, rowOf, and_mask_F0FF])

theorem ldF (x : Nibble) : Statement (.ldF x) :=
  of_row (regInRange_toNat x) (by simp [encode, rowOf, and_mask_F0FF])

theorem ldB (x : Nibble) : Statement (.ldB x) :=
  of_row (regInRange_toNat x) (by simp [encode, rowOf, and_mask_F0FF])

theorem stRegs (x : Nibble) : Statement (.stRegs x) :=
  of_row (regInRange_toNat x) (by simp [encode, rowOf, and_mask_F0FF])

theorem ldRegs (x : Nibble) : Statement (.ldRegs x) :=
  of_row (regInRange_toNat x) (by simp [encode, rowOf, and_mask_F0FF])

end Sys2Proof.Laws.EncodedInRow
end

