-- ==== Sys2Proof/Laws/Step.lean ====
section
/-! SUPPORT. What one step can do, said once: every statement about a step follows from these without unfolding it. -/

namespace Sys2Proof.Machine

/-- The fetched bytes decode to what the fetched word decodes to. -/
theorem decode_fetchBytes (s : State) :
    decode (fetchBytes s) =
      match decodeWord (fetchWord s) with
      | some i => .ok (i, [])
      | none => .error (.unrecognised (fetchWord s)) := decode_two ..

/-- A step that fetches: the execute phase of the decoded instruction or of an unrecognised word, then the tick. -/
theorem cycle_of_fetchable (s : State) (h : Fetchable s) :
    cycle s =
      match decodeWord (fetchWord s) with
      | some i => finishOutcome (exec i (advance s))
      | none => .next (finish (advance s) (unknownEvents (fetchWord s) (advance s))) := by
  rw [cycle, (fetchFault_eq_none s).2 h]
  simp only [dispatchBytes, decode_fetchBytes]
  cases decodeWord (fetchWord s) <;> rfl

/-- A step that cannot fetch. -/
theorem cycle_of_not_fetchable (s : State) (h : ¬Fetchable s) :
    cycle s = .fault (.memRange (max s.pc.toNat 0x1000)) := by
  have : fetchFault s = some (.memRange (max s.pc.toNat 0x1000)) := by
    rw [fetchFault, rangeFault_of_out _ _ (by decide) (by simp only [Fetchable] at h; omega)]
  rw [cycle, this]

theorem finishOutcome_eq_next (o : Host.Outcome State Fault Refusal) (t : State) (ev : List Event) :
    finishOutcome o = .next (t, ev) ↔ ∃ u, o = .next u ∧ t = tick u ∧ ev = tickEvents u := by
  cases o with
  | next u =>
    simp only [finishOutcome, finish, List.nil_append, Host.Outcome.next.injEq, Prod.mk.injEq]
    constructor
    · rintro ⟨rfl, rfl⟩; exact ⟨u, rfl, rfl, rfl⟩
    · rintro ⟨_, rfl, rfl, rfl⟩; exact ⟨rfl, rfl⟩
  | fault f => simp [finishOutcome]
  | refused r => simp [finishOutcome]

/-- Everything a completed step can be: a decoded instruction's execute phase and the tick, or an unrecognised word's
advance, diagnostic and tick. -/
theorem cycle_cases {s t : State} {ev : List Event} (h : cycle s = .next (t, ev)) :
    Fetchable s ∧
    ((∃ i u, decodeWord (fetchWord s) = some i ∧ exec i (advance s) = .next u ∧ t = tick u ∧
        ev = tickEvents u) ∨
      (decodeWord (fetchWord s) = none ∧ t = tick (advance s) ∧
        ev = .unknownOpcode (fetchWord s) s.pc :: tickEvents (advance s))) := by
  by_cases hf : Fetchable s
  · refine ⟨hf, ?_⟩
    rw [cycle_of_fetchable s hf] at h
    cases hd : decodeWord (fetchWord s) with
    | some i =>
      simp only [hd] at h
      obtain ⟨u, hu, ht, he⟩ := (finishOutcome_eq_next _ _ _).1 h
      exact .inl ⟨i, u, rfl, hu, ht, he⟩
    | none =>
      simp only [hd, finish, unknownEvents, Host.Outcome.next.injEq, Prod.mk.injEq] at h
      exact .inr ⟨rfl, h.1.symm, by rw [← h.2, advance_pc]; simp⟩
  · rw [cycle_of_not_fetchable s hf] at h
    cases h

/-- `step` is `cycle` with its events left off. -/
theorem step_eq_next (s t : State) : step s = .next t ↔ ∃ ev, cycle s = .next (t, ev) := by
  rw [step]
  cases cycle s with
  | next p => simp [dropEvents, Prod.ext_iff]
  | fault f => simp [dropEvents]
  | refused r => simp [dropEvents]

theorem step_eq_fault (s : State) (f : Fault) : step s = .fault f ↔ cycle s = .fault f := by
  rw [step]
  cases cycle s <;> simp [dropEvents]

theorem step_eq_refused (s : State) (r : Refusal) : step s = .refused r ↔ cycle s = .refused r := by
  rw [step]
  cases cycle s <;> simp [dropEvents]

/-- Everything a completed step can be, events left off. -/
theorem step_cases {s t : State} (h : step s = .next t) :
    Fetchable s ∧
    ((∃ i u, decodeWord (fetchWord s) = some i ∧ exec i (advance s) = .next u ∧ t = tick u) ∨
      (decodeWord (fetchWord s) = none ∧ t = tick (advance s))) := by
  obtain ⟨ev, h⟩ := (step_eq_next s t).1 h
  obtain ⟨hf, ⟨i, u, hd, hu, ht, -⟩ | ⟨hd, ht, -⟩⟩ := cycle_cases h
  · exact ⟨hf, .inl ⟨i, u, hd, hu, ht⟩⟩
  · exact ⟨hf, .inr ⟨hd, ht⟩⟩

end Sys2Proof.Machine
end

