-- ==== Sys2Proof/Tests/Slice0.lean ====
section
/-! SUPPORT. The model's own tests: the operand checks, one word of every instruction decoded, vectors of
95_test_vectors.md (each test names its vector), and for every statement with hypotheses a witness that meets them. -/

namespace Sys2Proof.Tests

open Sys2Proof Sys2Proof.Machine

/-! ## Helpers -/

/-- The state of a completed step. -/
def nextOf : Host.Outcome State Fault Refusal → Option State
  | .next t => some t
  | .fault _ => none
  | .refused _ => none

/-- The fault of a faulting step. -/
def faultIn : Host.Outcome State Fault Refusal → Option Fault
  | .next _ => none
  | .fault f => some f
  | .refused _ => none

/-- The reset state with these registers. -/
def regs (l : List (Nibble × Byte)) : State := l.foldl (fun s p => setV s p.1 p.2) State.reset

/-- One step on the word `w` at PC. -/
def run (w : Nat) (s : State) : Option State := nextOf (step (s.withFetchWord 16 w))

/-- The fault of one step on the word `w` at PC. -/
def runFault (w : Nat) (s : State) : Option Fault := faultIn (step (s.withFetchWord 16 w))

/-- The events of one step on the word `w` at PC. -/
def runEvents (w : Nat) (s : State) : List Event := stepEvents (s.withFetchWord 16 w)

/-- The state with these bytes from an address. -/
def bytesAt (a : Nat) (bs : List Byte) (s : State) : State := { s with mem := Memory.writeList s.mem a bs }

/-- The state with one more key down. -/
def keyed (k : Fin 16) (s : State) : State := setKey k true s

/-! ## Operand checks (30_encoding.md R52): each refuses the first value above its range -/

theorem test_reg_in_range : regInRange 15 = true ∧ regInRange 16 = false := by decide
theorem test_rows_in_range : rowsInRange 15 = true ∧ rowsInRange 16 = false := by decide
theorem test_imm8_in_range : imm8InRange 255 = true ∧ imm8InRange 256 = false := by decide
theorem test_addr_in_range : addrInRange 4095 = true ∧ addrInRange 4096 = false := by decide
theorem test_well_formed : (Instr.drw 15 15 15).wellFormed = true := by decide

/-! ## Decoding: a word written out from the patterns of 30_encoding.md R53, digit by digit -/

theorem test_decode_cls : decodeWord 0b0000_0000_1110_0000 = some .cls := by decide
theorem test_decode_ret : decodeWord 0b0000_0000_1110_1110 = some .ret := by decide
theorem test_decode_jp : decodeWord 0b0001_1010_1011_1100 = some (.jp 0xABC) := by decide
theorem test_decode_call : decodeWord 0b0010_0011_0000_0001 = some (.call 0x301) := by decide
theorem test_decode_seImm : decodeWord 0b0011_0011_0010_1010 = some (.seImm 3 0x2A) := by decide
theorem test_decode_sneImm : decodeWord 0b0100_0011_0010_1010 = some (.sneImm 3 0x2A) := by decide
theorem test_decode_seReg : decodeWord 0b0101_0001_0010_0000 = some (.seReg 1 2) := by decide
theorem test_decode_ldImm : decodeWord 0b0110_1010_0011_1100 = some (.ldImm 0xA 0x3C) := by decide
theorem test_decode_addImm : decodeWord 0b0111_1010_0000_0101 = some (.addImm 0xA 0x05) := by decide
theorem test_decode_ldReg : decodeWord 0b1000_0001_0010_0000 = some (.ldReg 1 2) := by decide
theorem test_decode_orReg : decodeWord 0b1000_0001_0010_0001 = some (.orReg 1 2) := by decide
theorem test_decode_andReg : decodeWord 0b1000_0001_0010_0010 = some (.andReg 1 2) := by decide
theorem test_decode_xorReg : decodeWord 0b1000_0001_0010_0011 = some (.xorReg 1 2) := by decide
theorem test_decode_addReg : decodeWord 0b1000_0001_0010_0100 = some (.addReg 1 2) := by decide
theorem test_decode_subReg : decodeWord 0b1000_0001_0010_0101 = some (.subReg 1 2) := by decide
theorem test_decode_shr : decodeWord 0b1000_0001_1111_0110 = some (.shr 1) := by decide
theorem test_decode_subnReg : decodeWord 0b1000_0001_0010_0111 = some (.subnReg 1 2) := by decide
theorem test_decode_shl : decodeWord 0b1000_0001_0010_1110 = some (.shl 1) := by decide
theorem test_decode_sneReg : decodeWord 0b1001_0001_0010_0000 = some (.sneReg 1 2) := by decide
theorem test_decode_ldI : decodeWord 0b1010_0010_1111_0000 = some (.ldI 0x2F0) := by decide
theorem test_decode_jpV0 : decodeWord 0b1011_0011_0000_0000 = some (.jpV0 0x300) := by decide
theorem test_decode_rnd : decodeWord 0b1100_0011_0000_1111 = some (.rnd 3 0x0F) := by decide
theorem test_decode_drw : decodeWord 0b1101_0001_0010_0101 = some (.drw 1 2 5) := by decide
theorem test_decode_skp : decodeWord 0b1110_0101_1001_1110 = some (.skp 5) := by decide
theorem test_decode_sknp : decodeWord 0b1110_0101_1010_0001 = some (.sknp 5) := by decide
theorem test_decode_ldVxDt : decodeWord 0b1111_0100_0000_0111 = some (.ldVxDt 4) := by decide
theorem test_decode_ldVxK : decodeWord 0b1111_0011_0000_1010 = some (.ldVxK 3) := by decide
theorem test_decode_ldDtVx : decodeWord 0b1111_0010_0001_0101 = some (.ldDtVx 2) := by decide
theorem test_decode_ldStVx : decodeWord 0b1111_0010_0001_1000 = some (.ldStVx 2) := by decide
theorem test_decode_addI : decodeWord 0b1111_0010_0001_1110 = some (.addI 2) := by decide
theorem test_decode_ldF : decodeWord 0b1111_0111_0010_1001 = some (.ldF 7) := by decide
theorem test_decode_ldB : decodeWord 0b1111_0000_0011_0011 = some (.ldB 0) := by decide
theorem test_decode_stRegs : decodeWord 0b1111_0010_0101_0101 = some (.stRegs 2) := by decide
theorem test_decode_ldRegs : decodeWord 0b1111_0010_0110_0101 = some (.ldRegs 2) := by decide

/-- Byte order: 12 34 is 0x1234, and bytes after the instruction are left over (20_memory.md R35). -/
theorem test_decode_bytes : decode [0x12, 0x34, 0x56] = .ok (.jp 0x234, [0x56]) := by rfl

/-- A rejected word and a missing byte are rejected by name. -/
theorem test_decode_rejects :
    decode [0x81, 0x28] = .error (.unrecognised 0x8128) ∧ decode [0x12] = .error (.truncated 1) := ⟨rfl, rfl⟩

/-! ## The step (2.1) -/

/-- T-STEP-1, T-STEP-10: an unrecognised word advances, ticks and is reported. -/
theorem test_unrecognised_state :
    (run 0x0000 { State.reset with pc := 0x204, dt := 3 }).map (fun t => (t.pc, t.dt)) = some (0x206, 2) := by
  decide
theorem test_unrecognised_events :
    runEvents 0x0000 { State.reset with pc := 0x300, dt := 1, st := 1 } =
      [.unknownOpcode 0x0000 0x300, .toneStart] := by decide

/-- T-STEP-2 to T-STEP-5: words near an instruction are none. -/
theorem test_unrecognised_words :
    [0x5121, 0x8128, 0xE59F, 0xF5FF].map (decodeTableWord 16) = [none, none, none, none] := by decide

/-- T-STEP-6, T-STEP-7, T-STEP-8: the last legal fetch and the first illegal ones. -/
theorem test_last_fetch :
    (run 0x6001 { State.reset with pc := 0xFFE }).map (fun t => (getV t 0, t.pc)) = some (1, 0x1000) := by decide
theorem test_fetch_faults :
    (runFault 0 { State.reset with pc := 0xFFF }, runFault 0 { State.reset with pc := 0x1000 }) =
      (some (.memRange 0x1000), some (.memRange 0x1000)) := by decide

/-- T-STEP-9: an odd PC is legal. -/
theorem test_odd_pc :
    (run 0x6A3C { State.reset with pc := 0x201 }).map (fun t => (getV t 0xA, t.pc)) = some (0x3C, 0x203) := by
  decide

/-! ## Control flow (2.2) -/

/-- T-CF-1. -/
theorem test_jp : (run 0x1234 State.reset).map (·.pc) = some 0x234 := by decide

/-- T-CF-4, T-CF-5. -/
theorem test_call_last :
    (run 0x2300 { State.reset with sp := 15 }).map (fun t => (t.pc, t.sp, t.stack.get 15)) =
      some (0x300, 16, 0x0202) := by decide
theorem test_call_overflow : runFault 0x2300 { State.reset with sp := 16 } = some (.stackOverflow 16) := by decide

/-- T-CF-6 (with another return address), T-CF-7. -/
theorem test_ret :
    (run 0x00EE { State.reset with sp := 1, stack := Vector.replicate 16 0x0456 }).map
      (fun t => (t.pc, t.sp, t.stack.get 0)) = some (0x456, 0, 0x0456) := by decide
theorem test_ret_underflow : runFault 0x00EE State.reset = some (.stackUnderflow 0) := by decide

/-- T-CF-8, T-CF-9. -/
theorem test_jpV0 : (run 0xB300 (regs [(0, 0x10)])).map (·.pc) = some 0x310 := by decide
theorem test_jpV0_not_masked : (run 0xBFFF (regs [(0, 0xFF)])).map (·.pc) = some 0x10FE := by decide

/-- T-CF-10 to T-CF-17. -/
theorem test_seImm :
    ((run 0x332A (regs [(3, 0x2A)])).map (·.pc), (run 0x332A (regs [(3, 0x2B)])).map (·.pc)) =
      (some 0x204, some 0x202) := by decide
theorem test_sneImm :
    ((run 0x432A (regs [(3, 0x2A)])).map (·.pc), (run 0x432A (regs [(3, 0x00)])).map (·.pc)) =
      (some 0x202, some 0x204) := by decide
theorem test_seReg :
    ((run 0x5120 (regs [(1, 7), (2, 7)])).map (·.pc), (run 0x5120 (regs [(1, 7), (2, 8)])).map (·.pc)) =
      (some 0x204, some 0x202) := by decide
theorem test_sneReg :
    ((run 0x9120 (regs [(1, 7), (2, 8)])).map (·.pc), (run 0x9330 (regs [(3, 0x99)])).map (·.pc)) =
      (some 0x204, some 0x202) := by decide

/-! ## Registers and ALU (2.3) -/

/-- V[1], V[2] and VF after one step. -/
def v12F (w : Nat) (s : State) : Option (Byte × Byte × Byte) :=
  (run w s).map fun t => (getV t 1, getV t 2, getV t 0xF)

/-- T-ALU-1, T-ALU-2, T-ALU-3. -/
theorem test_ldImm : (run 0x6A3C State.reset).map (getV · 0xA) = some 0x3C := by decide
theorem test_addImm :
    (run 0x7A05 (regs [(0xA, 0x3C), (0xF, 1)])).map (fun t => (getV t 0xA, getV t 0xF)) = some (0x41, 1) := by
  decide
theorem test_addImm_wraps : v12F 0x7101 (regs [(1, 0xFF)]) = some (0, 0, 0) := by decide

/-- T-ALU-4 to T-ALU-8. -/
theorem test_ldReg : v12F 0x8120 (regs [(2, 0x5A)]) = some (0x5A, 0x5A, 0) := by decide
theorem test_orReg : v12F 0x8121 (regs [(1, 0xF0), (2, 0x0F), (0xF, 1)]) = some (0xFF, 0x0F, 1) := by decide
theorem test_andReg : v12F 0x8122 (regs [(1, 0xF0), (2, 0x3C)]) = some (0x30, 0x3C, 0) := by decide
theorem test_xorReg : v12F 0x8123 (regs [(1, 0xF0), (2, 0x3C)]) = some (0xCC, 0x3C, 0) := by decide
theorem test_xorReg_self : v12F 0x8113 (regs [(1, 0xA5)]) = some (0, 0, 0) := by decide

/-- T-ALU-9, T-ALU-14. -/
theorem test_addReg_carry : v12F 0x8124 (regs [(1, 0xFF), (2, 1)]) = some (0, 1, 1) := by decide
theorem test_addReg_flag_wins : v12F 0x8F14 (regs [(1, 1), (0xF, 0x10)]) = some (1, 0, 0) := by decide

/-- T-ALU-16, T-ALU-17. -/
theorem test_subReg_borrow : v12F 0x8125 (regs [(1, 1), (2, 2)]) = some (0xFF, 2, 0) := by decide
theorem test_subReg_equal : v12F 0x8125 (regs [(1, 5), (2, 5)]) = some (0, 5, 1) := by decide

/-- T-ALU-20, T-ALU-23. -/
theorem test_shr : v12F 0x8126 (regs [(1, 5), (2, 0xAA)]) = some (2, 0xAA, 1) := by decide
theorem test_shr_flag_wins : v12F 0x8F06 (regs [(0xF, 2)]) = some (0, 0, 0) := by decide

/-- T-ALU-24, T-ALU-25. -/
theorem test_subnReg_borrow : v12F 0x8127 (regs [(1, 2), (2, 1)]) = some (0xFF, 1, 0) := by decide
theorem test_subnReg : v12F 0x8127 (regs [(1, 1), (2, 3)]) = some (2, 3, 1) := by decide

/-- T-ALU-27, T-ALU-28. -/
theorem test_shl : v12F 0x812E (regs [(1, 0x81), (2, 0x55)]) = some (2, 0x55, 1) := by decide
theorem test_shl_no_flag : v12F 0x812E (regs [(1, 0x40), (0xF, 1)]) = some (0x80, 0, 0) := by decide

/-- T-ALU-32: the effect of CXNN for the byte B7; and one draw is counted, whatever the byte. -/
theorem test_rnd : getV (rndWith 0xB7 3 0x0F State.reset) 3 = 0x07 := by decide
theorem test_rnd_counts : (run 0xC300 (regs [(3, 0x55)])).map (·.draws) = some 1 := by rfl

/-! ## Index register and memory (2.4) -/

/-- T-IDX-1, T-IDX-2, T-IDX-4. -/
theorem test_ldI : (run 0xA2F0 { State.reset with i := 0xFFFF }).map (·.i) = some 0x02F0 := by decide
theorem test_addI_flag :
    (run 0xF21E { regs [(2, 3)] with i := 0x0FFE }).map (fun t => (t.i, getV t 0xF)) = some (0x1001, 1) := by decide
theorem test_addI_no_flag :
    (run 0xF21E { regs [(2, 0xF), (0xF, 1)] with i := 0x0FF0 }).map (fun t => (t.i, getV t 0xF)) =
      some (0x0FFF, 0) := by decide

/-- Glyph 7 is at 0x073 (program P4), and only the low digit counts (43_index_memory.md R112). -/
theorem test_ldF : (run 0xF029 (regs [(0, 7)])).map (·.i) = some 0x073 := by decide
theorem test_ldF_low_digit : (run 0xF029 (regs [(0, 0xF7)])).map (·.i) = some 0x073 := by decide

/-- Program P3, step 3; program P7, the BCD store outside memory. -/
theorem test_ldB :
    (run 0xF033 { regs [(0, 0xFE)] with i := 0x300 }).map
      (fun t => [0x300, 0x301, 0x302].map (Memory.read t.mem)) = some [2, 5, 4] := by decide
theorem test_ldB_fault : runFault 0xF033 { State.reset with i := 0xFFF } = some (.memRange 0x1000) := by decide

/-- Program P3, steps 7 and 4. -/
theorem test_stRegs :
    (run 0xF255 { regs [(0, 2), (1, 5), (2, 4), (3, 9)] with i := 0x303 }).map
      (fun t => (t.i, [0x303, 0x304, 0x305, 0x306].map (Memory.read t.mem))) = some (0x303, [2, 5, 4, 0]) := by decide
theorem test_ldRegs :
    (run 0xF265 { bytesAt 0x300 [2, 5, 4, 9] (regs [(3, 7)]) with i := 0x300 }).map
      (fun t => (t.i, [0, 1, 2, 3].map (getV t))) = some (0x300, [2, 5, 4, 7]) := by decide

/-! ## Display (2.5) -/

/-- T-DRW-11. -/
theorem test_cls :
    (run 0x00E0 { regs [(0xF, 1)] with fb := togglePixel clearedFb 63 31 }).map
      (fun t => (pixel t.fb 63 31, t.rf, getV t 0xF)) = some (false, true, 1) := by decide

/-- T-DRW-2b: rows wrap; bit 7 is the leftmost pixel. -/
theorem test_drw_wraps :
    (run 0xD122 { bytesAt 0x300 [0x80, 0x80] (regs [(2, 0x1F)]) with i := 0x300 }).map
      (fun t => (t.fb.get 31, t.fb.get 0, getV t 0xF)) = some (1, 1, 0) := by decide

/-- T-DRW-4: one cleared pixel is a collision. -/
theorem test_drw_collision :
    (run 0xD121 { bytesAt 0x300 [0xC0] State.reset with i := 0x300, fb := togglePixel clearedFb 1 0 }).map
      (fun t => (t.fb.get 0, getV t 0xF, t.rf)) = some (1, 1, true) := by decide

/-! ## Keys and timers (2.6, 2.7) -/

/-- T-KEY-1, T-KEY-5; T-KEY-3, T-KEY-6. -/
theorem test_skp : (run 0xE59E (keyed 10 (regs [(5, 0x0A)]))).map (·.pc) = some 0x204 := by decide
theorem test_skp_fault : runFault 0xE59E (keyed 0 (regs [(5, 0x10)])) = some (.keyIndexRange 16) := by decide
theorem test_sknp : (run 0xE5A1 (regs [(5, 0x0A)])).map (·.pc) = some 0x204 := by decide
theorem test_sknp_fault : runFault 0xE5A1 (regs [(5, 0xFF)]) = some (.keyIndexRange 255) := by decide

/-- T-KEY-7, T-KEY-9. -/
theorem test_ldVxK_waits :
    (run 0xF30A { regs [(3, 0x55)] with dt := 2 }).map (fun t => (t.pc, getV t 3, t.dt)) =
      some (0x200, 0x55, 1) := by decide
theorem test_ldVxK_lowest :
    (run 0xF30A (keyed 9 (keyed 4 (keyed 12 (regs [(3, 0x55)]))))).map (fun t => (t.pc, getV t 3)) =
      some (0x202, 4) := by decide

/-- T-TMR-1, T-TMR-3. -/
theorem test_ldVxDt :
    (run 0xF407 { State.reset with dt := 0x20 }).map (fun t => (getV t 4, t.dt)) = some (0x20, 0x1F) := by decide
theorem test_ldDtVx : (run 0xF215 (regs [(2, 0x3C)])).map (·.dt) = some 0x3B := by decide

/-- T-TMR-7, T-TMR-8. -/
theorem test_ldStVx_tone :
    ((run 0xF218 (regs [(2, 1)])).map (·.st), runEvents 0xF218 (regs [(2, 1)])) = (some 0, [.toneStart]) := by decide
theorem test_ldStVx_zero :
    ((run 0xF218 { State.reset with st := 7 }).map (·.st), runEvents 0xF218 { State.reset with st := 7 }) =
      (some 0, []) := by decide

/-! ## The host (2.8) and the condition codes (60_exceptions.md R141) -/

/-- T-HOST-2, T-HOST-3. -/
theorem test_host_redraw : readRedraw (clearRedraw { State.reset with rf := true }) = false := by decide
theorem test_host_key : [2, 3, 4].map (keyDown (setKey 3 true State.reset)) = [false, true, false] := by decide

/-- The host's reads: a pixel, and the sound as ST != 0 (60_exceptions.md R152). -/
theorem test_host_reads :
    (readPixel { State.reset with fb := togglePixel clearedFb 2 1 } 2 1, soundActive State.reset,
      soundActive { State.reset with st := 1 }) = (true, false, true) := by decide

/-- The font's first and last byte after reset, and the bytes beside it (10_state.md R25, R26). -/
theorem test_reset_font :
    [0x04F, 0x050, 0x09F, 0x0A0].map (Memory.read State.reset.mem) = [0, 0xF0, 0x80, 0] := by decide

theorem test_codes :
    [Condition.unknownOpcode 0 0, .romTooLarge 3585, .ioError, .modelFault (.memRange 0),
      .modelFault (.stackOverflow 16), .modelFault (.stackUnderflow 0), .modelFault (.keyIndexRange 16)].map
      conditionCode = [1, 2, 3, 16, 17, 18, 19] := by decide

/-! ## Witnesses: for each statement with hypotheses, states and operands that meet them, at the boundary values -/

/-- The reset state with `w` at PC. -/
def placed (w : Nat) : State := State.reset.withFetchWord 16 w

theorem witness_DecoderFollowsTheTable :
    decodeWord 0xDFFF = some (.drw 0xF 0xF 0xF) ∧ decodeWord 0x8008 = none := by decide

theorem witness_TableRowsAreDisjoint :
    Row.mk 0xF0FF 0xE0A1 ∈ rows ∧ (0xEFA1 : Word) &&& 0xF0FF = 0xE0A1 := by decide

theorem witness_OnlyShiftsIgnoreAField :
    decodeWord (packXYN 0x8 0xF 0xF 0x6) = some (.shr 0xF) ∧ decodeWord 0x800E = some (.shl 0) ∧
      decodeWord 0x1000 = some (.jp 0) := by decide

/-- At the lowest and at the last fetchable PC. -/
theorem witness_StepRunsTheDecodedInstruction :
    let s := State.withFetchWord { State.reset with pc := 0xFFE } 16 0x6001
    s.pc.toNat ≤ 0xFFE ∧
      decode [Memory.read s.mem s.pc.toNat, Memory.read s.mem (s.pc.toNat + 1)] = .ok (.ldImm 0 1, []) :=
  ⟨by decide, rfl⟩
theorem witness_StepRunsTheDecodedInstruction_low :
    let s := State.withFetchWord { State.reset with pc := 0 } 16 0xD125
    s.pc.toNat ≤ 0xFFE ∧
      decode [Memory.read s.mem s.pc.toNat, Memory.read s.mem (s.pc.toNat + 1)] = .ok (.drw 1 2 5, []) :=
  ⟨by decide, rfl⟩

theorem witness_UnrecognisedWordOnlyAdvances :
    let s : State := { State.reset with pc := 0xFFE }
    s.pc.toNat ≤ 0xFFE ∧ decodeWord (fetchWord s) = none := by decide

theorem witness_FetchOutsideMemoryFaults :
    0xFFE < ({ State.reset with pc := 0xFFF } : State).pc.toNat ∧
      0xFFE < ({ State.reset with pc := 0xFFFF } : State).pc.toNat := by decide

/-- A completed step, and one that reads DT. -/
theorem witness_TimersTickOncePerStep :
    (∃ t, step (placed 0xF407) = .next t) ∧ decodeWord (fetchWord (placed 0xF407)) = some (.ldVxDt 4) :=
  ⟨⟨_, rfl⟩, by decide⟩

theorem witness_ToneStartsExactlyWhenSoundTimerIsOne :
    ∃ t ev, cycle { placed 0x6000 with st := 1 } = .next (t, ev) := ⟨_, _, rfl⟩

theorem witness_DiagnosticOnlyForUnrecognisedWords :
    (∃ t ev, cycle (placed 0x8008) = .next (t, ev)) ∧ ∃ t ev, cycle (placed 0x6000) = .next (t, ev) :=
  ⟨⟨_, _, rfl⟩, ⟨_, _, rfl⟩⟩

/-- Both sides of the equivalence. -/
theorem witness_StepCompletesExactlyWhenSafe :
    (∃ t, step (placed 0x6000) = .next t) ∧ step (placed 0x00EE) = .fault (.stackUnderflow 0) :=
  ⟨⟨_, rfl⟩, rfl⟩

/-- One faulting step of each kind. -/
theorem witness_FaultsAreTheFourModelFaults :
    runFault 0 { State.reset with pc := 0xFFF } = some (.memRange 0x1000) ∧
      runFault 0xF255 { State.reset with i := 0xFFE } = some (.memRange 0x1000) ∧
      runFault 0x2300 { State.reset with sp := 16 } = some (.stackOverflow 16) ∧
      runFault 0x00EE State.reset = some (.stackUnderflow 0) ∧
      runFault 0xE09E (regs [(0, 16)]) = some (.keyIndexRange 16) := by decide

theorem witness_JumpSetsPc : (0x1FFF : Word) &&& 0xF000 = 0x1000 := by decide

/-- The last free entry, and no free entry. -/
theorem witness_CallPushesTheReturnAddress :
    ({ State.reset with sp := 15 } : State).sp.val < 16 ∧ ({ State.reset with sp := 16 } : State).sp.val = 16 := by
  decide

/-- One entry, all entries, none. -/
theorem witness_ReturnPopsTheTopEntry :
    ({ State.reset with sp := 1 } : State).sp.val = (0 : Fin 16).val + 1 ∧
      ({ State.reset with sp := 16 } : State).sp.val = (15 : Fin 16).val + 1 ∧ State.reset.sp.val = 0 := by decide

/-- With `u` the state the call left. -/
theorem witness_ReturnUndoesCall :
    ∃ t, exec (.call 0x300) { State.reset with sp := 15 } = .next t ∧ t.sp = t.sp ∧ t.stack = t.stack :=
  ⟨_, rfl, rfl, rfl⟩

theorem witness_ImmediateSkipsAddTwoWhenTheConditionHolds :
    (0x3F01 : Word) &&& 0xF000 = 0x3000 ∧ (0x4F01 : Word) &&& 0xF000 = 0x4000 := by decide

/-- Words of both kinds: a low digit of 0 and another. -/
theorem witness_RegisterSkipsAddTwoWhenTheConditionHolds :
    opField 0x5FF0 = 0x5 ∧ opField 0x5FF1 = 0x5 ∧ opField 0x9000 = 0x9 ∧ opField 0x9001 = 0x9 := by decide

theorem witness_JumpToItselfIsIdle :
    (placed 0x1200).pc.toNat ≤ 0xFFE ∧ decodeWord (fetchWord (placed 0x1200)) = some (.jp 0x200) ∧
      (0x200 : Addr12).toNat = (placed 0x1200).pc.toNat := by decide

theorem witness_LoadAndAddImmediate :
    (0x6FFF : Word) &&& 0xF000 = 0x6000 ∧ (0x7000 : Word) &&& 0xF000 = 0x7000 ∧ (0xE : Nibble) ≠ 0xF := by decide

theorem witness_MoveAndLogic :
    (0x8FF0 : Word) &&& 0xF00F = 0x8000 ∧ (0x8011 : Word) &&& 0xF00F = 0x8001 ∧
      (0x8F02 : Word) &&& 0xF00F = 0x8002 ∧ (0x8003 : Word) &&& 0xF00F = 0x8003 ∧ (0 : Nibble) ≠ 1 := by decide

/-- x is not F, z is neither. -/
theorem witness_AddAndSubtractWithFlag : (0xE : Nibble) ≠ 0xF#4 ∧ (0 : Nibble) ≠ 0xE ∧ (0 : Nibble) ≠ 0xF#4 := by
  decide

theorem witness_ShiftsMoveOneBitIntoTheFlag :
    (0xE : Nibble) ≠ 0xF#4 ∧ (0 : Nibble) ≠ 0xE ∧ (0 : Nibble) ≠ 0xF#4 := by decide

theorem witness_RandomByteIsMasked : (0x0F : Byte).getLsbD 4 = false ∧ (4 : Nibble) ≠ 3 := by decide

theorem witness_LoadIndexAndGlyphAddress :
    (0xAFFF : Word) &&& 0xF000 = 0xA000 ∧ (0xFF29 : Word) &&& 0xF0FF = 0xF029 := by decide

theorem witness_AddToIndexFlagsAboveTwelveBits : (0xE : Nibble) ≠ 0xF#4 := by decide

/-- The highest I that stores, the lowest that faults, and bytes beside the stored ones. -/
theorem witness_DecimalDigitsAreStored :
    (0xFFD : Word).toNat + 2 ≤ 0xFFF ∧ 0xFFF < (0xFFE : Word).toNat + 2 ∧
      ¬((0xFFD : Word).toNat ≤ 0xFFC ∧ 0xFFC ≤ (0xFFD : Word).toNat + 2) := by decide

/-- x = F at the highest I that stores, x = 0 and x = F at the lowest that fault. -/
theorem witness_RegistersAreStoredFromIndex :
    (0xFF0 : Word).toNat + (0xF : Nibble).toNat ≤ 0xFFF ∧ 0xFFF < (0xFF1 : Word).toNat + (0xF : Nibble).toNat ∧
      0xFFF < (0x1000 : Word).toNat + (0 : Nibble).toNat ∧ (0xF : Nibble).toNat ≤ (0xF : Nibble).toNat ∧
      ¬((0xFF0 : Word).toNat ≤ 0xFEF ∧ 0xFEF ≤ (0xFF0 : Word).toNat + (0xF : Nibble).toNat) := by decide

theorem witness_RegistersAreLoadedFromIndex :
    (0xFFF : Word).toNat + (0 : Nibble).toNat ≤ 0xFFF ∧ 0xFFF < (0xFFF : Word).toNat + (1 : Nibble).toNat := by decide

/-- A store that completes at the top of memory, loaded from the state it left. -/
theorem witness_StoredRegistersLoadBack :
    (∃ t, exec (.stRegs 1) { State.reset with i := 0xFFE } = .next t) ∧ (1 : Nibble).toNat ≤ (1 : Nibble).toNat :=
  ⟨⟨_, rfl⟩, by decide⟩

theorem witness_StoredBytesAreFetched :
    (∃ t, exec (.stRegs 1) { State.reset with i := 0x208 } = .next t) ∧ 0 + 1 ≤ (1 : Nibble).toNat ∧
      (0x208 : Word).toNat = ({ State.reset with i := 0x208 } : State).i.toNat + 0 :=
  ⟨⟨_, rfl⟩, by decide, by decide⟩

/-- No rows anywhere, fifteen rows at the highest legal I, and one byte further; a pixel under the sprite and one
beside it. -/
theorem witness_DrawFlipsTheSpritePixels :
    InMemory (0xFFFF : Word).toNat (0 : Nibble).toNat ∧ InMemory (0xFF1 : Word).toNat (0xF : Nibble).toNat ∧
      ¬InMemory (0xFF2 : Word).toNat (0xF : Nibble).toNat := by decide
theorem witness_DrawFlipsTheSpritePixels_under : spriteBit State.reset.mem 0x050 62 31 1 1 31 :=
  ⟨0, 3, by decide⟩
theorem witness_DrawFlipsTheSpritePixels_beside : ¬spriteBit State.reset.mem 0x050 62 31 0 1 31 := by
  rintro ⟨row, col, h, -⟩
  exact Nat.not_lt_zero row h

/-- With `u` the state the first draw left; it turned a pixel on. -/
theorem witness_DrawingTwiceRestores :
    ∃ t, exec (.drw 0 1 5) { State.reset with i := 0x050 } = .next t ∧
      t.mem = State.reset.mem ∧ t.i = 0x050 ∧ getV t 0 = getV State.reset 0 ∧ getV t 1 = getV State.reset 1 :=
  ⟨_, rfl, by decide⟩

/-- Index 15, 16 and 255. -/
theorem witness_KeySkips :
    (getV (regs [(5, 15)]) 5).toNat = (15 : Fin 16).val ∧ 15 < (getV (regs [(5, 16)]) 5).toNat ∧
      15 < (getV (regs [(5, 255)]) 5).toNat := by decide

/-- Key 0 down, key 15 alone down, no key down; the step that waits. -/
theorem witness_WaitForKey :
    (0xFF0A : Word) &&& 0xF0FF = 0xF00A ∧
      ((keyed 0 State.reset).keys.get 0 = true ∧ ∀ j : Fin 16, j < 0 → (keyed 0 State.reset).keys.get j = false) ∧
      ((keyed 15 State.reset).keys.get 15 = true ∧
        ∀ j : Fin 16, j < 15 → (keyed 15 State.reset).keys.get j = false) := by decide
theorem witness_WaitForKey_step :
    Fetchable (placed 0xF30A) ∧ decodeWord (fetchWord (placed 0xF30A)) = some (.ldVxK 3) ∧
      ∀ k : Fin 16, (placed 0xF30A).keys.get k = false := by decide

theorem witness_ReadDelayTimer : (0xE : Nibble) ≠ 0xF := by decide

theorem witness_SetTimers :
    ((0xFF15 : Word) &&& 0xF0FF = 0xF015 ∧ (0xF018 : Word) &&& 0xF0FF = 0xF018) ∧
      ((∃ t ev, cycle (placed 0xF215) = .next (t, ev)) ∧
        decodeWord (fetchWord (placed 0xF215)) = some (.ldDtVx 2)) ∧
      (∃ t ev, cycle (placed 0xF218) = .next (t, ev)) ∧ decodeWord (fetchWord (placed 0xF218)) = some (.ldStVx 2) :=
  ⟨by decide, ⟨⟨_, _, rfl⟩, by decide⟩, ⟨_, _, rfl⟩, by decide⟩

/-- The highest register a block load writes is F; VE is left alone by a draw. -/
theorem witness_FrameOfRegisters :
    (∃ t, exec (.drw 0 1 0xF) State.reset = .next t) ∧ writesV (.drw 0 1 0xF) 0xE = false ∧
      (∃ t, exec (.ldRegs 0xE) State.reset = .next t) ∧ writesV (.ldRegs 0xE) 0xF = false :=
  ⟨⟨_, rfl⟩, by decide, ⟨_, rfl⟩, by decide⟩

/-- The byte below and the byte above a store, and a form that stores nothing. -/
theorem witness_FrameOfMemory :
    let s : State := { State.reset with i := 0x300 }
    (∃ t, exec (.stRegs 1) s = .next t) ∧ ¬(effAddr s ≤ 0x2FF ∧ 0x2FF < effAddr s + storeCount (.stRegs 1)) ∧
      ¬(effAddr s ≤ 0x302 ∧ 0x302 < effAddr s + storeCount (.stRegs 1)) ∧
      (∃ t, exec (.ldRegs 1) s = .next t) ∧ ¬(effAddr s ≤ 0x300 ∧ 0x300 < effAddr s + storeCount (.ldRegs 1)) :=
  ⟨⟨_, rfl⟩, by decide, by decide, ⟨_, rfl⟩, by decide⟩

/-- One instruction outside every column but V. -/
theorem witness_FrameOfTheOtherState :
    let i : Instr := .ldImm 0 1
    (∃ t, exec i State.reset = .next t) ∧ ¬writesI i ∧ writesPc i = false ∧ ¬writesStack i ∧ ¬writesDisplay i ∧
      ¬writesDt i ∧ ¬writesSt i ∧ ∀ x nn, i ≠ .rnd x nn :=
  ⟨⟨_, rfl⟩, by simp [writesI], rfl, by simp [writesStack], by simp [writesDisplay], by simp [writesDt],
    by simp [writesSt], by simp⟩

/-- A flag-writing instruction with x = F, and one that leaves VF alone. -/
theorem witness_FlagRegisterOverload :
    ((∃ t, exec (.addReg 0xF 0) State.reset = .next t) ∧ writesFlag (.addReg 0xF 0)) ∧
      (∃ t, exec (.ldRegs 0xE) State.reset = .next t) ∧ ¬writesFlag (.ldRegs 0xE) ∧
      (∀ nn, Instr.ldRegs 0xE ≠ .ldImm 0xF#4 nn ∧ Instr.ldRegs 0xE ≠ .addImm 0xF#4 nn ∧
        Instr.ldRegs 0xE ≠ .rnd 0xF#4 nn) ∧
      (∀ y, Instr.ldRegs 0xE ≠ .ldReg 0xF#4 y ∧ Instr.ldRegs 0xE ≠ .orReg 0xF#4 y ∧
        Instr.ldRegs 0xE ≠ .andReg 0xF#4 y ∧ Instr.ldRegs 0xE ≠ .xorReg 0xF#4 y) ∧
      Instr.ldRegs 0xE ≠ .ldVxDt 0xF#4 ∧ Instr.ldRegs 0xE ≠ .ldVxK 0xF#4 ∧ Instr.ldRegs 0xE ≠ .ldRegs 0xF#4 :=
  ⟨⟨⟨_, rfl⟩, .inl ⟨0xF, 0, .inl rfl⟩⟩, ⟨_, rfl⟩, by simp [writesFlag], by simp, by simp, by simp, by simp,
    by decide⟩

/-- A draw of no rows, an instruction that leaves RF alone, and a step of each kind. -/
theorem witness_RedrawFlagIsOnlySet :
    (∃ t, exec (.drw 0 0 0) State.reset = .next t) ∧ writesDisplay (.drw 0 0 0) ∧
      (∃ t, exec (.ldImm 0 1) State.reset = .next t) ∧ ¬writesDisplay (.ldImm 0 1) ∧
      (∃ t, step (placed 0x00E0) = .next t) ∧ ∃ t, step (placed 0x6001) = .next t :=
  ⟨⟨_, rfl⟩, .inr ⟨0, 0, 0, rfl⟩, ⟨_, rfl⟩, by simp [writesDisplay], ⟨_, rfl⟩, ⟨_, rfl⟩⟩

theorem witness_KeyStateIsReadOnly :
    (∃ t, step (placed 0xF30A) = .next t) ∧ ¬readsKeys (.ldImm 0 1) ∧ readsKeys (.sknp 0xF) :=
  ⟨⟨_, rfl⟩, by simp [readsKeys], 0xF, .inr (.inl rfl)⟩

theorem witness_SoundTimerIsUnobservable : writesSt (.ldStVx 0xF) ∧ ¬writesSt (.ldDtVx 0) :=
  ⟨⟨0xF, rfl⟩, by simp [writesSt]⟩

theorem witness_OnlyRandomDependsOnTheDraw : ∀ x nn, Instr.drw 0 1 5 ≠ .rnd x nn := by simp

/-- A step that stores a byte that differs from the reset contents. -/
theorem witness_StepKeepsMemoryCanonical :
    let s : State := { regs [(0, 7)] with mem := [(0x200, 0xF0), (0x201, 0x55)], i := 0xFFF }
    MemoryCanonical s ∧ ∃ t, step s = .next t := ⟨by decide, ⟨_, rfl⟩⟩

/-- The largest jump, with a stack entry at its bound. -/
theorem witness_StepKeepsPcBounded :
    let s : State := { regs [(0, 0xFF)] with mem := [(0x200, 0xBF), (0x201, 0xFF)], stack := Vector.replicate 16 0x1000 }
    PcBounded s ∧ ∃ t, step s = .next t := ⟨by decide, ⟨_, rfl⟩⟩

theorem witness_ResetAndHostKeepInvariants :
    MemoryCanonical State.reset ∧ PcBounded State.reset ∧ ∃ t, loadProgram [0x12, 0x00] State.reset = .ok t :=
  ⟨by decide, by decide, ⟨_, rfl⟩⟩

/-- The font's last byte, and the zero bytes on either side of the font. -/
theorem witness_ResetValues : (79 < 80) ∧ (0x04F < 0x050 ∨ 0x0A0 ≤ 0x04F) ∧ (0x0A0 < 0x050 ∨ 0x0A0 ≤ 0x0A0) := by
  decide

/-- The longest program that is accepted, the shortest that is not, and the empty one. -/
theorem witness_LoadProgramIsAllOrNothing :
    (List.replicate 3584 (0xFF : Byte)).length ≤ 3584 ∧ 3584 < (List.replicate 3585 (0xFF : Byte)).length ∧
      3583 < (List.replicate 3584 (0xFF : Byte)).length := by
  rw [List.length_replicate, List.length_replicate]
  decide

theorem witness_LoadProgramFrame :
    (∃ t, loadProgram [0x12, 0x34] State.reset = .ok t) ∧ ¬(0x200 ≤ 0x202 ∧ 0x202 < 0x200 + [0x12, 0x34].length) :=
  ⟨⟨_, rfl⟩, by decide⟩

/-- A program that starts with an instruction, and one that starts with an unrecognised word. -/
theorem witness_BootRunsTheFirstProgramWord :
    (∃ t, loadProgram (0x60 :: 0x05 :: [0x70, 0x03, 0x00, 0x00]) (hostReset State.reset) = .ok t) ∧
      decodeWord (joinBytes 0x60 0x05) = some (.ldImm 0 5) ∧
      (∃ t, loadProgram (0x81 :: 0x28 :: []) (hostReset State.reset) = .ok t) ∧
      decodeWord (joinBytes 0x81 0x28) = none := ⟨⟨_, rfl⟩, by decide, ⟨_, rfl⟩, by decide⟩

theorem witness_PlacedWordIsFetched :
    Fetchable { State.reset with pc := 0xFFE } ∧ (0 : Nat) ≠ (0xFFE : Word).toNat ∧
      (0 : Nat) ≠ (0xFFE : Word).toNat + 1 := by decide

end Sys2Proof.Tests
end

section
/-! SUPPORT. Two elements of the state that stay apart from the rest of a step (10_state.md R20, R22): the redraw flag,
which instructions only set, and the key state, which instructions only read. -/

namespace Sys2Proof.Machine

/-! ## Outcomes from two states, compared -/

theorem mapNext_faultOr (g : State → State) (f : Option Fault) (t : State) :
    mapNext g (faultOr f t) = faultOr f (g t) := by
  cases f <;> rfl

/-- The check of an instruction reads the registers, I and SP only. -/
theorem faultOf_congr (i : Instr) {s s' : State} (hv : s'.v = s.v) (hi : s'.i = s.i) (hsp : s'.sp = s.sp) :
    faultOf i s' = faultOf i s := by
  have hget : ∀ x, getV s' x = getV s x := fun x => by rw [getV, getV, hv]
  cases i <;> simp [faultOf, pushFault, popFault, hget, hi, hsp]

/-- A change of the state that leaves the check and commutes with the effect commutes with the execute phase. -/
theorem exec_eq_mapNext {i : Instr} {s s' : State} {g : State → State} (hf : faultOf i s' = faultOf i s)
    (he : effectOf i s' = g (effectOf i s)) : exec i s' = mapNext g (exec i s) := by
  rw [exec_eq, exec_eq, hf, he, mapNext_faultOr]

/-- What commutes with the PC advance commutes with a skip. -/
theorem skipIf_comm {g : State → State} (h : ∀ s, advance (g s) = g (advance s)) (c : Bool) (s : State) :
    skipIf c (g s) = g (skipIf c s) := by
  cases c
  · rfl
  · exact h s

/-! ## The redraw flag -/

theorem effectOf_rf_of_writesDisplay {i : Instr} (h : writesDisplay i) (s : State) :
    (effectOf i s).rf = true := by
  obtain rfl | ⟨x, y, n, rfl⟩ := h <;> rfl

/-- An instruction that sets RF overwrites it without reading it. -/
theorem exec_setRf_of_writesDisplay {i : Instr} (h : writesDisplay i) (s : State) (b : Bool) :
    exec i { s with rf := b } = exec i s := by
  obtain rfl | ⟨x, y, n, rfl⟩ := h <;> rfl

/-- The effect of any other instruction carries RF through. -/
theorem effectOf_setRf {i : Instr} (h : ¬writesDisplay i) (s : State) (b : Bool) :
    effectOf i { s with rf := b } = { effectOf i s with rf := b } := by
  cases i
  case cls => exact absurd (.inl rfl) h
  case drw x y n => exact absurd (.inr ⟨x, y, n, rfl⟩) h
  case seImm | sneImm | seReg | sneReg | skp | sknp =>
    exact skipIf_comm (g := fun t => { t with rf := b }) (fun _ => rfl) _ s
  case ldVxK =>
    have hk : lowestKey { s with rf := b } = lowestKey s := rfl
    simp only [effectOf, hk]
    cases lowestKey s <;> rfl
  all_goals rfl

theorem exec_setRf {i : Instr} (h : ¬writesDisplay i) (s : State) (b : Bool) :
    exec i { s with rf := b } = mapNext (fun t => { t with rf := b }) (exec i s) :=
  exec_eq_mapNext (faultOf_congr i rfl rfl rfl) (effectOf_setRf h s b)

/-- Carrying RF through means leaving it: put the RF that is there. -/
theorem effectOf_rf_of_not_writesDisplay {i : Instr} (h : ¬writesDisplay i) (s : State) :
    (effectOf i s).rf = s.rf :=
  (congrArg State.rf (effectOf_setRf h s s.rf) :)

/-- RF after an execute phase: as it was, or set by `00E0` or `DXYN`. -/
theorem effectOf_rf_eq_true (i : Instr) (s : State) :
    (effectOf i s).rf = true ↔ s.rf = true ∨ writesDisplay i := by
  by_cases h : writesDisplay i
  · simp [effectOf_rf_of_writesDisplay h, h]
  · simp [effectOf_rf_of_not_writesDisplay h, h]

/-- RF after a step: as it was, or set by the instruction fetched. -/
theorem step_rf_eq_true {s t : State} (h : step s = .next t) :
    t.rf = true ↔ s.rf = true ∨ ∃ i, decodeWord (fetchWord s) = some i ∧ writesDisplay i := by
  obtain ⟨-, ⟨i, u, hd, hu, rfl⟩ | ⟨hd, rfl⟩⟩ := step_cases h
  · obtain ⟨-, rfl⟩ := (exec_eq_next ..).1 hu
    simp [effectOf_rf_eq_true, hd]
  · simp [hd]

/-- Settles O47: RF is set by `00E0` and `DXYN` on every execution, and every other instruction carries it through. -/
theorem redrawFlagIsOnlySet : Obligations.RedrawFlagIsOnlySet := by
  refine ⟨fun i s t h => ?_, fun s t => step_rf_eq_true,
    fun s b i => ⟨fun h => exec_setRf_of_writesDisplay h s b, fun h => exec_setRf h s b⟩,
    fun s => ⟨rfl, rfl⟩⟩
  obtain ⟨-, rfl⟩ := (exec_eq_next ..).1 h
  exact ⟨fun h => effectOf_rf_of_writesDisplay h s, fun h => effectOf_rf_of_not_writesDisplay h s⟩

/-! ## The key state -/

/-- No instruction writes K. -/
@[simp] theorem effectOf_keys (i : Instr) (s : State) : (effectOf i s).keys = s.keys := by
  cases i
  case seImm | sneImm | seReg | sneReg | skp | sknp => exact skipIf_keys _ s
  case ldVxK =>
    simp only [effectOf]
    cases lowestKey s <;> rfl
  all_goals rfl

theorem step_keys {s t : State} (h : step s = .next t) : t.keys = s.keys := by
  obtain ⟨-, ⟨i, u, -, hu, rfl⟩ | ⟨-, rfl⟩⟩ := step_cases h
  · obtain ⟨-, rfl⟩ := (exec_eq_next ..).1 hu
    simp
  · simp

/-- The effect of an instruction other than `EX9E`, `EXA1`, `FX0A` carries K through. -/
theorem effectOf_setKeys {i : Instr} (h : ¬readsKeys i) (s : State) (ks : Vector Bool 16) :
    effectOf i { s with keys := ks } = { effectOf i s with keys := ks } := by
  cases i
  case skp x => exact absurd ⟨x, .inl rfl⟩ h
  case sknp x => exact absurd ⟨x, .inr (.inl rfl)⟩ h
  case ldVxK x => exact absurd ⟨x, .inr (.inr rfl)⟩ h
  case seImm | sneImm | seReg | sneReg =>
    exact skipIf_comm (g := fun t => { t with keys := ks }) (fun _ => rfl) _ s
  all_goals rfl

theorem exec_setKeys {i : Instr} (h : ¬readsKeys i) (s : State) (ks : Vector Bool 16) :
    exec i { s with keys := ks } = mapNext (fun t => { t with keys := ks }) (exec i s) :=
  exec_eq_mapNext (faultOf_congr i rfl rfl rfl) (effectOf_setKeys h s ks)

/-- The reset state with every key pressed: what the three readers tell apart from the reset state. -/
def allKeysDown : State := { State.reset with keys := Vector.replicate 16 true }

@[simp] theorem getV_reset (x : Nibble) : getV State.reset x = 0 := by
  simp [getV, State.reset, Vector.get_eq_getElem]

@[simp] theorem getV_allKeysDown (x : Nibble) : getV allKeysDown x = 0 := getV_reset x

/-- With every V at 0 the readers ask for key 0 (`FX0A` for the lowest key): up, then down, they leave PC at different
addresses. -/
theorem effectOf_pc_allKeysDown_ne {i : Instr} (h : readsKeys i) :
    (effectOf i allKeysDown).pc ≠ (effectOf i State.reset).pc := by
  have hup : keyDown State.reset 0 = false := rfl
  have hdown : keyDown allKeysDown 0 = true := rfl
  have hnone : lowestKey State.reset = none := rfl
  have hsome : lowestKey allKeysDown = some 0 := rfl
  have hskip : allKeysDown.pc + 2 ≠ State.reset.pc := by decide
  have hnoskip : allKeysDown.pc ≠ State.reset.pc + 2 := by decide
  have hstay : allKeysDown.pc ≠ State.reset.pc - 2 := by decide
  obtain ⟨x, rfl | rfl | rfl⟩ := h
  · simpa [effectOf, hup, hdown] using hskip
  · simpa [effectOf, hup, hdown] using hnoskip
  · simpa [effectOf, hnone, hsome] using hstay

/-- No reader's check fails when every V is 0. -/
theorem faultOf_allKeysDown_of_readsKeys {i : Instr} (h : readsKeys i) : faultOf i allKeysDown = none := by
  obtain ⟨x, rfl | rfl | rfl⟩ := h
  · simp [faultOf, keyFault_eq_none]
  · simp [faultOf, keyFault_eq_none]
  · simp [faultOf, rangeFault_eq_none, touchCount]

/-- `EX9E`, `EXA1` and `FX0A` each depend on K. -/
theorem exec_allKeysDown_ne {i : Instr} (h : readsKeys i) :
    exec i allKeysDown ≠ mapNext (fun t => { t with keys := allKeysDown.keys }) (exec i State.reset) := by
  have hfault : faultOf i allKeysDown = none := faultOf_allKeysDown_of_readsKeys h
  have hsame : faultOf i State.reset = faultOf i allKeysDown := faultOf_congr i rfl rfl rfl
  rw [exec_eq, exec_eq, hsame, hfault, faultOr_none, faultOr_none, mapNext, ne_eq, Host.Outcome.next.injEq]
  exact fun heq => effectOf_pc_allKeysDown_ne h (congrArg State.pc heq :)

theorem hostReset_keys_get (s : State) (k : Fin 16) : (hostReset s).keys.get k = false := by
  simp [hostReset, State.reset, Vector.get_eq_getElem]

/-- `set_key` writes K[k] and no other key. -/
theorem setKey_keys_get (s : State) (k j : Fin 16) (b : Bool) :
    (setKey k b s).keys.get j = if j = k then b else s.keys.get j := by
  simp [setKey, Vector.get_eq_getElem, Vector.getElem_set, Fin.ext_iff, eq_comm]

/-- Settles O48: K passes every step, the three readers and only they depend on it, and the host's `set_key` and reset
write it. -/
theorem keyStateIsReadOnly : Obligations.KeyStateIsReadOnly :=
  ⟨fun _ _ => step_keys,
    fun s ks _ h => exec_setKeys h s ks,
    fun _ h => ⟨State.reset, allKeysDown.keys, exec_allKeysDown_ne h⟩,
    hostReset_keys_get,
    fun s k j b => ⟨setKey_keys_get s k j b, rfl⟩⟩

end Sys2Proof.Machine
end

section
/-! SUPPORT. The host's `load_program` said once: what it answers and when (20_memory.md R43). -/

namespace Sys2Proof.Machine

/-- A byte inside the written range is the byte of the list. -/
theorem Memory.read_writeList_inside (m : Memory) (a k : Nat) (ws : List Byte) (h : k < ws.length) :
    Memory.read (Memory.writeList m a ws) (a + k) = ws.getD k 0 := by
  rw [Memory.read_writeList, if_pos (by omega), Nat.add_sub_cancel_left]

/-- `load_program` refuses exactly the programs longer than 3584 bytes. -/
theorem loadProgram_eq_error (bytes : List Byte) (s : State) (c : Condition) :
    loadProgram bytes s = .error c ↔ 3584 < bytes.length ∧ .romTooLarge bytes.length = c := by
  rw [loadProgram, show Config.romMax = 3584 from rfl]
  split <;> simp [*]

/-- `load_program` accepts exactly the programs of at most 3584 bytes, and writes them from 0x200 upward. -/
theorem loadProgram_eq_ok (bytes : List Byte) (s t : State) :
    loadProgram bytes s = .ok t ↔
      bytes.length ≤ 3584 ∧ { s with mem := Memory.writeList s.mem 0x200 bytes } = t := by
  rw [loadProgram, show Config.romMax = 3584 from rfl, show Config.progBase = 0x200 from rfl]
  split
  case isTrue h => simp [Nat.not_le.2 h]
  case isFalse h => simp [Nat.not_lt.1 h]

/-- Settles O55: the three cases are the answers of `load_program`, and the accepted bytes are read back from 0x200. -/
theorem loadProgramIsAllOrNothing : Obligations.LoadProgramIsAllOrNothing := by
  refine fun s bytes => ⟨fun hlong => ?refused, fun hfits => ?accepted, fun hnil => ?empty⟩
  case refused => exact (loadProgram_eq_error ..).2 ⟨hlong, rfl⟩
  case accepted =>
    exact ⟨_, (loadProgram_eq_ok ..).2 ⟨hfits, rfl⟩, fun k => Memory.read_writeList_inside s.mem 0x200 k bytes⟩
  case empty =>
    subst hnil
    exact (loadProgram_eq_ok ..).2 ⟨Nat.zero_le _, rfl⟩

end Sys2Proof.Machine
end

section
/-! SUPPORT. The jump `1NNN` and the immediate skips `3XNN`, `4XNN` (41_control_flow.md sections 2 and 4): the rows of
the decoder they stand in, and a skip as a change of PC alone. -/

namespace Sys2Proof

/-! ## The decoder at the high digits 1, 3 and 4 -/

theorem decodeWord_of_opField_1 {w : Word} (h : opField w = 0x1#4) : decodeWord w = some (.jp (nnnField w)) := by
  simp only [decodeWord, h]

theorem decodeWord_of_opField_3 {w : Word} (h : opField w = 0x3#4) :
    decodeWord w = some (.seImm (xField w) (nnField w)) := by
  simp only [decodeWord, h]

theorem decodeWord_of_opField_4 {w : Word} (h : opField w = 0x4#4) :
    decodeWord w = some (.sneImm (xField w) (nnField w)) := by
  simp only [decodeWord, h]

end Sys2Proof

namespace Sys2Proof.Machine

/-! ## The three instructions write PC alone -/

/-- The operand of a jump, zero-extended, is the word of the same value. -/
theorem addrOperand_eq_ofNat (nnn : Addr12) : addrOperand nnn = BitVec.ofNat 16 nnn.toNat :=
  (BitVec.ofNat_toNat 16 nnn).symm

theorem exec_jp_eq (s : State) (nnn : Addr12) :
    exec (.jp nnn) s = .next { s with pc := BitVec.ofNat 16 nnn.toNat } := by
  have hjump : exec (.jp nnn) s = .next { s with pc := addrOperand nnn } := rfl
  rw [hjump, addrOperand_eq_ofNat]

/-- A skip writes PC and nothing else. -/
theorem skipIf_eq (c : Bool) (s : State) : skipIf c s = { s with pc := if c then s.pc + 2 else s.pc } := by
  cases c
  · rfl
  · rfl

theorem exec_seImm_eq (s : State) (x : Nibble) (nn : Byte) :
    exec (.seImm x nn) s = .next { s with pc := if getV s x = nn then s.pc + 2 else s.pc } := by
  have hskip : exec (.seImm x nn) s = .next (skipIf (getV s x == nn) s) := rfl
  rw [hskip, skipIf_eq]
  simp only [beq_iff_eq]

/-- `4XNN` skips on the opposite condition, so the two branches change places. -/
theorem exec_sneImm_eq (s : State) (x : Nibble) (nn : Byte) :
    exec (.sneImm x nn) s = .next { s with pc := if getV s x = nn then s.pc else s.pc + 2 } := by
  have hskip : exec (.sneImm x nn) s = .next (skipIf (getV s x != nn) s) := rfl
  rw [hskip, skipIf_eq]
  simp only [bne_iff_ne, ne_eq, ite_not]

/-- Settles O16: the high digit 1 selects the jump's row, and the jump writes PC alone. -/
theorem jumpSetsPc : Obligations.JumpSetsPc :=
  ⟨fun _ hmask => decodeWord_of_opField_1 (opField_of_mask_F000 hmask), exec_jp_eq⟩

/-- Settles O21: the high digits 3 and 4 select the rows of the immediate skips, which write PC alone. -/
theorem immediateSkipsAddTwoWhenTheConditionHolds : Obligations.ImmediateSkipsAddTwoWhenTheConditionHolds :=
  ⟨fun _ hmask => decodeWord_of_opField_3 (opField_of_mask_F000 hmask),
    fun _ hmask => decodeWord_of_opField_4 (opField_of_mask_F000 hmask),
    fun s x nn => ⟨exec_seImm_eq s x nn, exec_sneImm_eq s x nn⟩⟩

end Sys2Proof.Machine
end

section
/-! SUPPORT. The instructions that write one register and nothing else (42_alu.md sections 1 and 2): the immediate
load and add `6XNN`, `7XNN`, and the move and logic rows `8XY0` to `8XY3`. -/

namespace Sys2Proof

/-! ## The decoder at the high digits 6, 7 and 8 -/

theorem decodeWord_of_opField_6 {w : Word} (h : opField w = 0x6#4) :
    decodeWord w = some (.ldImm (xField w) (nnField w)) := by
  simp only [decodeWord, h]

theorem decodeWord_of_opField_7 {w : Word} (h : opField w = 0x7#4) :
    decodeWord w = some (.addImm (xField w) (nnField w)) := by
  simp only [decodeWord, h]

theorem decodeWord_of_opField_8 {w : Word} (h : opField w = 0x8#4) :
    decodeWord w = decodeAlu (xField w) (yField w) (nField w) := by
  simp only [decodeWord, h]

/-- A family 8 row of R53: the low digit of the match column selects the operation. -/
theorem decodeWord_of_mask_F00F_8 {w v : Word} (h : w &&& 0xF00F#16 = v) (hv : v.extractLsb' 12 4 = 0x8#4) :
    decodeWord w = decodeAlu (xField w) (yField w) (v.extractLsb' 0 4) := by
  obtain ⟨hop, hn⟩ := fields_of_mask_F00F h
  rw [decodeWord_of_opField_8 (hop.trans hv), hn]

end Sys2Proof

namespace Sys2Proof.Machine

/-! ## One register written, the flag not -/

theorem getV_setV_same (s : State) (x : Nibble) (b : Byte) : getV (setV s x b) x = b := by
  rw [getV_setV, if_pos rfl]

theorem getV_setV_ne (s : State) {x z : Nibble} (b : Byte) (h : z ≠ x) : getV (setV s x b) z = getV s z := by
  rw [getV_setV, if_neg h]

/-- An instruction whose whole effect is `V[x] <- b` completes with every fact `P` of `b` true of V[x], every other
register as it was, VF among them when x is not F, and nothing but the register file changed. -/
theorem exec_writes_one_register {i : Instr} {s : State} {x : Nibble} {b : Byte} (P : Byte → Prop)
    (hexec : exec i s = .next (setV s x b)) (hb : P b) :
    ∃ t, exec i s = .next t ∧ P (getV t x) ∧ (∀ z, z ≠ x → getV t z = getV s z) ∧ t = { s with v := t.v } :=
  ⟨setV s x b, hexec, (getV_setV_same s x b).symm ▸ hb, fun _ hz => getV_setV_ne s b hz, setV_eq s x b⟩

/-- The sum of `7XNN`, whose carry is dropped, is the sum mod 256. -/
theorem toNat_addCarry (a b : Byte) : (addCarry a b).1.toNat = (a.toNat + b.toNat) % 256 :=
  BitVec.toNat_ofNat _ _

/-- Settles O25: each row's low digit selects its operation, whose one write is the move or the bitwise result. -/
theorem moveAndLogic : Obligations.MoveAndLogic := by
  refine ⟨fun w h => decodeWord_of_mask_F00F_8 h rfl, fun w h => decodeWord_of_mask_F00F_8 h rfl,
    fun w h => decodeWord_of_mask_F00F_8 h rfl, fun w h => decodeWord_of_mask_F00F_8 h rfl,
    fun s x y => ⟨?move, ?or, ?and, ?xor⟩⟩
  case move => exact exec_writes_one_register (· = getV s y) rfl rfl
  case or =>
    exact exec_writes_one_register (fun r => ∀ k, r.getLsbD k = ((getV s x).getLsbD k || (getV s y).getLsbD k)) rfl
      fun _ => BitVec.getLsbD_or
  case and =>
    exact exec_writes_one_register (fun r => ∀ k, r.getLsbD k = ((getV s x).getLsbD k && (getV s y).getLsbD k)) rfl
      fun _ => BitVec.getLsbD_and
  case xor =>
    exact exec_writes_one_register (fun r => ∀ k, r.getLsbD k = ((getV s x).getLsbD k != (getV s y).getLsbD k)) rfl
      fun _ => BitVec.getLsbD_xor

/-- Settles O24: the high digits 6 and 7 select the immediate load and add, whose one write is nn or the sum mod 256. -/
theorem loadAndAddImmediate : Obligations.LoadAndAddImmediate := by
  refine ⟨fun w h => decodeWord_of_opField_6 (opField_of_mask_F000 h),
    fun w h => decodeWord_of_opField_7 (opField_of_mask_F000 h), fun s x nn => ⟨?load, ?add⟩⟩
  case load => exact exec_writes_one_register (· = nn) rfl rfl
  case add =>
    exact exec_writes_one_register (fun r => r.toNat = ((getV s x).toNat + nn.toNat) % 256) rfl
      (toNat_addCarry (getV s x) nn)

end Sys2Proof.Machine
end

section
/-! SUPPORT. The instructions that load I from an operand (43_index_memory.md section 1): `ANNN`, and `FX29` with the
glyph address of a register's low digit. -/

namespace Sys2Proof

/-! ## The decoder at the high digits A and F -/

theorem decodeWord_of_opField_A {w : Word} (h : opField w = 0xA#4) : decodeWord w = some (.ldI (nnnField w)) := by
  simp only [decodeWord, h]

theorem decodeWord_of_opField_F {w : Word} (h : opField w = 0xF#4) :
    decodeWord w = decodeMisc (xField w) (nnField w) := by
  simp only [decodeWord, h]

/-- A family F row of R53: the low byte of the match column selects the instruction. -/
theorem decodeWord_of_mask_F0FF_F {w v : Word} (h : w &&& 0xF0FF#16 = v) (hv : v.extractLsb' 12 4 = 0xF#4) :
    decodeWord w = decodeMisc (xField w) (v.extractLsb' 0 8) := by
  obtain ⟨hop, hnn⟩ := fields_of_mask_F0FF h
  rw [decodeWord_of_opField_F (hop.trans hv), hnn]

end Sys2Proof

namespace Sys2Proof.Machine

/-! ## The two values loaded -/

/-- Zero-extension keeps the value of `nnn` (R52). -/
@[simp] theorem toNat_addrOperand (nnn : Addr12) : (addrOperand nnn).toNat = nnn.toNat :=
  BitVec.toNat_setWidth_of_le (by decide)

/-- The mask 0x0F keeps the low digit. -/
theorem toNat_and_0F (b : Byte) : (b &&& 0x0F).toNat = b.toNat % 16 := by
  rw [BitVec.toNat_and]
  exact Nat.and_two_pow_sub_one_eq_mod b.toNat 4

/-- The glyph address as a natural: the last glyph starts at 0x09B, so 16 bits hold every one. -/
theorem toNat_glyphAddr (b : Byte) : (glyphAddr b).toNat = 0x050 + b.toNat % 16 * 5 := by
  have hfits : 0x050 + b.toNat % 16 * 5 < 2 ^ 16 := by omega
  rw [glyphAddr, toNat_and_0F]
  exact (BitVec.toNat_ofNat _ _).trans (Nat.mod_eq_of_lt hfits)

/-- Settles O29: the rows `ANNN` and `FX29` select the two loads, which write I alone. -/
theorem loadIndexAndGlyphAddress : Obligations.LoadIndexAndGlyphAddress := by
  refine ⟨fun _ h => decodeWord_of_opField_A (opField_of_mask_F000 h), fun _ h => decodeWord_of_mask_F0FF_F h rfl,
    fun s nnn x => ⟨?ldI, ?ldF⟩⟩
  case ldI => exact ⟨{ s with i := addrOperand nnn }, rfl, toNat_addrOperand nnn, rfl⟩
  case ldF => exact ⟨{ s with i := glyphAddr (getV s x) }, rfl, toNat_glyphAddr (getV s x), rfl⟩

end Sys2Proof.Machine
end

section
/-! SUPPORT. The display instruction `00E0` (44_display.md section 2): the whole state it leaves. -/

namespace Sys2Proof.Machine

/-- `00E0` has no check: from every state it answers the cleared framebuffer with RF set (R121). -/
theorem exec_cls (s : State) : exec .cls s = .next { s with fb := clearedFb, rf := true } := rfl

/-- Settles O36: `00E0` replaces the framebuffer by the cleared one and sets RF, and writes nothing else. -/
theorem clearScreen : Obligations.ClearScreen := by
  refine ⟨?decodes, fun s => ⟨{ s with fb := clearedFb, rf := true }, exec_cls s, ?pixels, rfl, rfl⟩⟩
  case decodes => decide
  case pixels => exact pixel_clearedFb

end Sys2Proof.Machine
end

section
/-! SUPPORT. Keypad and timer access (45_keys_timers.md): the waiting load `FX0A` in its two cases, the timer writes
`FX15` and `FX18`, and the step of a decoded instruction with the tick that follows it. -/

namespace Sys2Proof.Machine

/-! ## The step of a decoded instruction -/

/-- The step of a word that decodes is its execute phase and the tick. -/
theorem cycle_of_decoded {s : State} {i : Instr} (hfetch : Fetchable s) (hdecode : decodeWord (fetchWord s) = some i) :
    cycle s = finishOutcome (exec i (advance s)) := by
  simp only [cycle_of_fetchable s hfetch, hdecode]

/-- An instruction fetched, decoded and completed ends its step with the tick. -/
theorem step_of_decoded {s u : State} {i : Instr} (hfetch : Fetchable s) (hdecode : decodeWord (fetchWord s) = some i)
    (hexec : exec i (advance s) = .next u) : step s = .next (tick u) := by
  rw [step, cycle_of_decoded hfetch hdecode, hexec]
  rfl

/-- A completed step is the tick of what its instruction left, with the events of that tick. -/
theorem cycle_eq_next_of_decoded {s t u : State} {ev : List Event} {i : Instr} (h : cycle s = .next (t, ev))
    (hdecode : decodeWord (fetchWord s) = some i) (hexec : exec i (advance s) = .next u) :
    t = tick u ∧ ev = tickEvents u := by
  obtain ⟨hfetch, -⟩ := cycle_cases h
  rw [cycle_of_decoded hfetch hdecode, hexec] at h
  cases h
  exact ⟨rfl, rfl⟩

/-! ## The wait for a key (R132) -/

/-- A pressed key with no pressed key below it is the key `FX0A` finds. -/
theorem lowestKey_of_pressed {s : State} {k : Fin 16} (hk : s.keys.get k = true)
    (hbelow : ∀ j : Fin 16, j < k → s.keys.get j = false) : lowestKey s = some k.val := by
  refine (lowestKey_eq_some s k.val).2 ⟨k.isLt, (keyDown_eq s k).trans hk, fun j hj => ?_⟩
  have hj16 : j < 16 := hj.trans k.isLt
  exact (keyDown_eq s ⟨j, hj16⟩).trans (hbelow ⟨j, hj16⟩ hj)

theorem exec_ldVxK_of_some {s : State} {k : Nat} (x : Nibble) (h : lowestKey s = some k) :
    exec (.ldVxK x) s = .next (setV s x (BitVec.ofNat 8 k)) := by
  have hwait : exec (.ldVxK x) s = execLdVxK x s := rfl
  rw [hwait, execLdVxK, h]

theorem exec_ldVxK_of_none {s : State} (x : Nibble) (h : lowestKey s = none) :
    exec (.ldVxK x) s = .next (rewind s) := by
  have hwait : exec (.ldVxK x) s = execLdVxK x s := rfl
  rw [hwait, execLdVxK, h]

/-- Going back after the advance of the same step leaves the state as it was. -/
theorem rewind_advance (s : State) : rewind (advance s) = s := by
  have hpc : s.pc + 2 - 2 = s.pc := BitVec.add_sub_cancel ..
  rw [rewind, advance, hpc]

/-- Settles O40: `FX0A` loads the lowest pressed key; with none pressed it undoes the PC advance, so the step is the
tick alone. -/
theorem waitForKey : Obligations.WaitForKey := by
  refine ⟨fun _ h => decodeWord_of_mask_F0FF_F h rfl, fun s x => ⟨fun k hk hbelow => ?found, fun hup => ?waits⟩,
    fun s x hfetch hdecode hup => ?step⟩
  case found =>
    have hbyte : (BitVec.ofNat 8 k.val).toNat = k.val :=
      (BitVec.toNat_ofNat ..).trans (Nat.mod_eq_of_lt (k.isLt.trans (by decide)))
    exact exec_writes_one_register (fun r => r.toNat = k.val)
      (exec_ldVxK_of_some x (lowestKey_of_pressed hk hbelow)) hbyte
  case waits => exact exec_ldVxK_of_none x ((lowestKey_eq_none s).2 hup)
  case step =>
    have hnone : lowestKey (advance s) = none := (lowestKey_eq_none (advance s)).2 hup
    have htick := step_of_decoded hfetch hdecode (exec_ldVxK_of_none x hnone)
    rwa [rewind_advance] at htick

/-! ## The timer writes (R134, R135) -/

theorem exec_ldDtVx (s : State) (x : Nibble) : exec (.ldDtVx x) s = .next { s with dt := getV s x } := rfl

theorem exec_ldStVx (s : State) (x : Nibble) : exec (.ldStVx x) s = .next { s with st := getV s x } := rfl

/-- Settles O42: each row writes its timer, and the tick of the same step counts the written value down; ST written as
1 is the ST of 1 that the tick's tone answers to. -/
theorem setTimers : Obligations.SetTimers := by
  refine ⟨fun _ h => decodeWord_of_mask_F0FF_F h rfl, fun _ h => decodeWord_of_mask_F0FF_F h rfl,
    fun s x => ⟨exec_ldDtVx s x, exec_ldStVx s x⟩,
    fun s t ev x h => ⟨fun hdecode => ?delay, fun hdecode => ?sound⟩⟩
  case delay =>
    obtain ⟨rfl, -⟩ := cycle_eq_next_of_decoded h hdecode (exec_ldDtVx (advance s) x)
    exact toNat_countDown (getV s x)
  case sound =>
    obtain ⟨rfl, rfl⟩ := cycle_eq_next_of_decoded h hdecode (exec_ldStVx (advance s) x)
    exact ⟨toNat_countDown (getV s x), toneStart_mem_tickEvents { advance s with st := getV s x }⟩

end Sys2Proof.Machine
end

section
/-! SUPPORT. The sound timer's tick (60_exceptions.md section 7): the ST it acts on, the ST it leaves and how often it
starts the tone. -/

namespace Sys2Proof.Machine

/-! ## ST when the tick acts -/

/-- Only `FX18` writes ST. -/
theorem effectOf_st_of_not_writesSt {i : Instr} (h : ¬writesSt i) (s : State) : (effectOf i s).st = s.st := by
  cases i
  case ldStVx x => exact absurd ⟨x, rfl⟩ h
  case seImm | sneImm | seReg | sneReg | skp | sknp => exact skipIf_st _ s
  case ldVxK =>
    simp only [effectOf]
    cases lowestKey s <;> rfl
  all_goals rfl

theorem stBeforeTick_of_ldStVx {s : State} {x : Nibble} (hdecode : decodeWord (fetchWord s) = some (.ldStVx x)) :
    stBeforeTick s = getV s x := by
  rw [stBeforeTick, hdecode]

theorem stBeforeTick_of_not_writesSt {s : State} (h : ∀ i, decodeWord (fetchWord s) = some i → ¬writesSt i) :
    stBeforeTick s = s.st := by
  unfold stBeforeTick
  split
  next x hdecode => exact absurd ⟨x, rfl⟩ (h _ hdecode)
  next => rfl

/-- The tick of a decoded instruction's step acts on the ST its execute phase left. -/
theorem stBeforeTick_of_decoded {s : State} {i : Instr} (hdecode : decodeWord (fetchWord s) = some i) :
    stBeforeTick s = (effectOf i (advance s)).st := by
  by_cases hwrites : writesSt i
  · obtain ⟨x, rfl⟩ := hwrites
    exact stBeforeTick_of_ldStVx hdecode
  · have hnot : ∀ j, decodeWord (fetchWord s) = some j → ¬writesSt j := fun j hj =>
      Option.some.inj (hdecode.symm.trans hj) ▸ hwrites
    rw [stBeforeTick_of_not_writesSt hnot, effectOf_st_of_not_writesSt hwrites, advance_st]

/-- The tick of an unrecognised word's step acts on the ST of before the step. -/
theorem stBeforeTick_of_unrecognised {s : State} (hdecode : decodeWord (fetchWord s) = none) :
    stBeforeTick s = s.st :=
  stBeforeTick_of_not_writesSt fun i hi => by rw [hdecode] at hi; cases hi

/-! ## What the tick leaves and emits -/

theorem count_toneStart_tickEvents (s : State) : (tickEvents s).count .toneStart = if s.st = 1 then 1 else 0 := by
  unfold tickEvents
  split <;> rfl

/-- A completed step counts down the ST its tick acts on. -/
theorem cycle_st {s t : State} {ev : List Event} (h : cycle s = .next (t, ev)) :
    t.st = countDown (stBeforeTick s) := by
  obtain ⟨-, ⟨i, u, hdecode, hexec, rfl, -⟩ | ⟨hdecode, rfl, -⟩⟩ := cycle_cases h
  · obtain ⟨-, rfl⟩ := (exec_eq_next ..).1 hexec
    rw [tick_st, stBeforeTick_of_decoded hdecode]
  · rw [tick_st, advance_st, stBeforeTick_of_unrecognised hdecode]

/-- A completed step starts the tone once when its tick finds ST at 1, and otherwise never; the diagnostic of an
unrecognised word is no tone. -/
theorem cycle_count_toneStart {s t : State} {ev : List Event} (h : cycle s = .next (t, ev)) :
    ev.count .toneStart = if stBeforeTick s = 1 then 1 else 0 := by
  obtain ⟨-, ⟨i, u, hdecode, hexec, -, rfl⟩ | ⟨hdecode, -, rfl⟩⟩ := cycle_cases h
  · obtain ⟨-, rfl⟩ := (exec_eq_next ..).1 hexec
    rw [count_toneStart_tickEvents, stBeforeTick_of_decoded hdecode]
  · have hdiagnostic : Event.unknownOpcode (fetchWord s) s.pc ≠ .toneStart := by simp
    rw [List.count_cons_of_ne hdiagnostic, count_toneStart_tickEvents, advance_st,
      stBeforeTick_of_unrecognised hdecode]

/-- Settles O11: the tick counts down the ST it acts on, and the number of tones in the step, 1 or 0, says both when
the tone starts and that it starts at most once. -/
theorem toneStartsExactlyWhenSoundTimerIsOne : Obligations.ToneStartsExactlyWhenSoundTimerIsOne := by
  intro s t ev h
  have hcount := cycle_count_toneStart h
  refine ⟨?countdown, ?tone, ?once⟩
  case countdown => rw [cycle_st h, toNat_countDown]
  case tone =>
    rw [← List.count_pos_iff, hcount]
    split
    next hone => exact iff_of_true Nat.one_pos hone
    next hnot => exact iff_of_false (Nat.lt_irrefl 0) hnot
  case once =>
    rw [hcount]
    split <;> decide

end Sys2Proof.Machine
end

section
/-! SUPPORT. The decoder read through its high digit (30_encoding.md sections 3 and 4): it inverts the encoder, what it
answers is the encoding's instruction but for the `y` of a shift, and it follows the 34 rows of R53. -/

namespace Sys2Proof

/-! ## The decoder at the remaining high digits -/

theorem decodeWord_of_opField_0 {w : Word} (h : opField w = 0x0#4) : decodeWord w = decodeFixed w := by
  simp only [decodeWord, h]

theorem decodeWord_of_opField_2 {w : Word} (h : opField w = 0x2#4) : decodeWord w = some (.call (nnnField w)) := by
  simp only [decodeWord, h]

theorem decodeWord_of_opField_5 {w : Word} (h : opField w = 0x5#4) :
    decodeWord w = if nField w = 0 then some (.seReg (xField w) (yField w)) else none := by
  simp only [decodeWord, h]

theorem decodeWord_of_opField_9 {w : Word} (h : opField w = 0x9#4) :
    decodeWord w = if nField w = 0 then some (.sneReg (xField w) (yField w)) else none := by
  simp only [decodeWord, h]

theorem decodeWord_of_opField_B {w : Word} (h : opField w = 0xB#4) : decodeWord w = some (.jpV0 (nnnField w)) := by
  simp only [decodeWord, h]

theorem decodeWord_of_opField_C {w : Word} (h : opField w = 0xC#4) :
    decodeWord w = some (.rnd (xField w) (nnField w)) := by
  simp only [decodeWord, h]

theorem decodeWord_of_opField_D {w : Word} (h : opField w = 0xD#4) :
    decodeWord w = some (.drw (xField w) (yField w) (nField w)) := by
  simp only [decodeWord, h]

theorem decodeWord_of_opField_E {w : Word} (h : opField w = 0xE#4) :
    decodeWord w = decodeKeySkip (xField w) (nnField w) := by
  simp only [decodeWord, h]

/-- A family 5 row of R53. -/
theorem decodeWord_of_mask_F00F_5 {w : Word} (h : w &&& 0xF00F#16 = 0x5000#16) :
    decodeWord w = some (.seReg (xField w) (yField w)) := by
  obtain ⟨hop, hn⟩ := fields_of_mask_F00F h
  rw [decodeWord_of_opField_5 hop, hn]
  rfl

/-- A family 9 row of R53. -/
theorem decodeWord_of_mask_F00F_9 {w : Word} (h : w &&& 0xF00F#16 = 0x9000#16) :
    decodeWord w = some (.sneReg (xField w) (yField w)) := by
  obtain ⟨hop, hn⟩ := fields_of_mask_F00F h
  rw [decodeWord_of_opField_9 hop, hn]
  rfl

/-- A family E row of R53: the low byte of the match column selects the instruction. -/
theorem decodeWord_of_mask_F0FF_E {w v : Word} (h : w &&& 0xF0FF#16 = v) (hv : v.extractLsb' 12 4 = 0xE#4) :
    decodeWord w = decodeKeySkip (xField w) (v.extractLsb' 0 8) := by
  obtain ⟨hop, hnn⟩ := fields_of_mask_F0FF h
  rw [decodeWord_of_opField_E (hop.trans hv), hnn]

/-- A family 0 row of R53 fixes the whole word. -/
theorem decodeWord_of_mask_FFFF {w v : Word} (h : w &&& 0xFFFF#16 = v) : decodeWord w = decodeWord v := by
  rw [← h, and_mask_FFFF]

/-- The sixteen families. -/
theorem high_digit_cases : ∀ d : Nibble,
    d = 0x0#4 ∨ d = 0x1#4 ∨ d = 0x2#4 ∨ d = 0x3#4 ∨ d = 0x4#4 ∨ d = 0x5#4 ∨ d = 0x6#4 ∨ d = 0x7#4 ∨
    d = 0x8#4 ∨ d = 0x9#4 ∨ d = 0xA#4 ∨ d = 0xB#4 ∨ d = 0xC#4 ∨ d = 0xD#4 ∨ d = 0xE#4 ∨ d = 0xF#4 := by
  decide

/-! ## Decoding an encoded instruction -/

/-- The decoder inverts the encoder: the fields of a packed word are what was packed, and the fixed digits select the
instruction again. -/
theorem decodeWord_encode (i : Instr) : decodeWord (encode i) = some i := by
  cases i
  case cls | ret => rfl
  case jp | call | ldI | jpV0 => simp [encode, decodeWord]
  case seImm | sneImm | ldImm | addImm | rnd => simp [encode, decodeWord]
  case seReg | sneReg | drw => simp [encode, decodeWord]
  case ldReg | orReg | andReg | xorReg | addReg | subReg | shr | subnReg | shl => simp [encode, decodeWord, decodeAlu]
  case skp | sknp => simp [encode, decodeWord, decodeKeySkip]
  case ldVxDt | ldVxK | ldDtVx | ldStVx | addI | ldF | ldB | stRegs | ldRegs => simp [encode, decodeWord, decodeMisc]

/-- Settles O1: the two encoded bytes join to the encoded word, which the decoder inverts. -/
theorem decodeEncodeRoundTrip : Obligations.DecodeEncodeRoundTrip := by
  intro i rest
  have hbytes : encodeBytes i ++ rest = hiByte (encode i) :: loByte (encode i) :: rest := rfl
  rw [hbytes, decode_two, joinBytes_hiByte_loByte, decodeWord_encode]

/-- Settles O6: the decoder is evaluated on each word. -/
theorem exampleWordsDecode : Obligations.ExampleWordsDecode := by
  unfold Obligations.ExampleWordsDecode
  decide

/-! ## Encoding what was decoded -/

theorem decodeFixed_eq_some {w : Word} {i : Instr} (h : decodeFixed w = some i) : w = encode i := by
  unfold decodeFixed at h
  split at h <;> cases h <;> rfl

theorem decodeKeySkip_eq_some {x : Nibble} {nn : Byte} {i : Instr} (h : decodeKeySkip x nn = some i) :
    packXNN 0xE x nn = encode i := by
  unfold decodeKeySkip at h
  split at h <;> cases h <;> rfl

theorem decodeMisc_eq_some {x : Nibble} {nn : Byte} {i : Instr} (h : decodeMisc x nn = some i) :
    packXNN 0xF x nn = encode i := by
  unfold decodeMisc at h
  split at h <;> cases h <;> rfl

/-- Family 8 keeps both register fields but in the shifts, which have no `y`. -/
theorem decodeAlu_eq_some {x y n : Nibble} {i : Instr} (h : decodeAlu x y n = some i) :
    packXYN 0x8 x y n = encode i ∨ (i = .shr x ∧ n = 0x6#4) ∨ (i = .shl x ∧ n = 0xE#4) := by
  unfold decodeAlu at h
  split at h <;> cases h <;> simp [encode]

/-- A decoded word is the encoding of its instruction, but for the ignored `y` of `8XY6` and `8XYE` (R56): the high
digit selects a format, and the word is its fields packed in that format. -/
theorem eq_encode_of_decodeWord {w : Word} {i : Instr} (h : decodeWord w = some i) :
    w = encode i ∨ ∃ x y, (i = .shr x ∧ w = packXYN 0x8 x y 0x6) ∨ (i = .shl x ∧ w = packXYN 0x8 x y 0xE) := by
  have hNNN := packNNN_fields w
  have hXNN := packXNN_fields w
  have hXYN := packXYN_fields w
  obtain hop | hop | hop | hop | hop | hop | hop | hop | hop | hop | hop | hop | hop | hop | hop | hop :=
    high_digit_cases (opField w) <;> rw [hop] at hNNN hXNN hXYN
  · exact .inl (decodeFixed_eq_some (decodeWord_of_opField_0 hop ▸ h))
  · cases (decodeWord_of_opField_1 hop).symm.trans h; exact .inl hNNN.symm
  · cases (decodeWord_of_opField_2 hop).symm.trans h; exact .inl hNNN.symm
  · cases (decodeWord_of_opField_3 hop).symm.trans h; exact .inl hXNN.symm
  · cases (decodeWord_of_opField_4 hop).symm.trans h; exact .inl hXNN.symm
  · rw [decodeWord_of_opField_5 hop] at h
    split at h <;> cases h
    next hn => exact .inl (hn ▸ hXYN).symm
  · cases (decodeWord_of_opField_6 hop).symm.trans h; exact .inl hXNN.symm
  · cases (decodeWord_of_opField_7 hop).symm.trans h; exact .inl hXNN.symm
  · rw [decodeWord_of_opField_8 hop] at h
    obtain henc | ⟨rfl, hn⟩ | ⟨rfl, hn⟩ := decodeAlu_eq_some h
    · exact .inl (hXYN.symm.trans henc)
    · exact .inr ⟨_, yField w, .inl ⟨rfl, (hn ▸ hXYN).symm⟩⟩
    · exact .inr ⟨_, yField w, .inr ⟨rfl, (hn ▸ hXYN).symm⟩⟩
  · rw [decodeWord_of_opField_9 hop] at h
    split at h <;> cases h
    next hn => exact .inl (hn ▸ hXYN).symm
  · cases (decodeWord_of_opField_A hop).symm.trans h; exact .inl hNNN.symm
  · cases (decodeWord_of_opField_B hop).symm.trans h; exact .inl hNNN.symm
  · cases (decodeWord_of_opField_C hop).symm.trans h; exact .inl hXNN.symm
  · cases (decodeWord_of_opField_D hop).symm.trans h; exact .inl hXYN.symm
  · exact .inl (hXNN.symm.trans (decodeKeySkip_eq_some (decodeWord_of_opField_E hop ▸ h)))
  · exact .inl (hXNN.symm.trans (decodeMisc_eq_some (decodeWord_of_opField_F hop ▸ h)))

theorem decodeWord_pack_shr (x y : Nibble) : decodeWord (packXYN 0x8#4 x y 0x6#4) = some (.shr x) := by
  rw [decodeWord_of_opField_8 (opField_packXYN ..), xField_packXYN, nField_packXYN]
  rfl

theorem decodeWord_pack_shl (x y : Nibble) : decodeWord (packXYN 0x8#4 x y 0xE#4) = some (.shl x) := by
  rw [decodeWord_of_opField_8 (opField_packXYN ..), xField_packXYN, nField_packXYN]
  rfl

/-- Settles O4: outside the shifts the word is its fields packed again, and a shift's row ignores `y`. -/
theorem onlyShiftsIgnoreAField : Obligations.OnlyShiftsIgnoreAField :=
  ⟨fun _ _ => eq_encode_of_decodeWord, fun x y => ⟨decodeWord_pack_shr x y, decodeWord_pack_shl x y⟩⟩

/-! ## The rows of the table -/

/-- One instruction of every row, in the order of R53. -/
def rowRepresentatives : List Instr :=
  [.cls, .ret, .jp 0, .call 0, .seImm 0 0, .sneImm 0 0, .seReg 0 0, .ldImm 0 0, .addImm 0 0, .ldReg 0 0,
    .orReg 0 0, .andReg 0 0, .xorReg 0 0, .addReg 0 0, .subReg 0 0, .shr 0, .subnReg 0 0, .shl 0, .sneReg 0 0,
    .ldI 0, .jpV0 0, .rnd 0 0, .drw 0 0 0, .skp 0, .sknp 0, .ldVxDt 0, .ldVxK 0, .ldDtVx 0, .ldStVx 0, .addI 0,
    .ldF 0, .ldB 0, .stRegs 0, .ldRegs 0]

theorem map_rowOf_rowRepresentatives : rowRepresentatives.map rowOf = rows := rfl

/-- Every row of the table is some instruction's. -/
theorem exists_rowOf_of_mem_rows {r : Row} (h : r ∈ rows) : ∃ i, rowOf i = r := by
  rw [← map_rowOf_rowRepresentatives, List.mem_map] at h
  obtain ⟨i, -, hi⟩ := h
  exact ⟨i, hi⟩

/-- The row of an instruction does not depend on its operands, so it is its representative's. -/
theorem rowOf_mem_rows (i : Instr) : rowOf i ∈ rows := by
  cases i <;> simp [rowOf, rows]

/-- Every instruction is well formed and its encoding is in its row. -/
theorem encodedInRow : ∀ i : Instr, Laws.EncodedInRow.Statement i
  | .cls => Laws.EncodedInRow.cls
  | .ret => Laws.EncodedInRow.ret
  | .jp nnn => Laws.EncodedInRow.jp nnn
  | .call nnn => Laws.EncodedInRow.call nnn
  | .seImm x nn => Laws.EncodedInRow.seImm x nn
  | .sneImm x nn => Laws.EncodedInRow.sneImm x nn
  | .seReg x y => Laws.EncodedInRow.seReg x y
  | .ldImm x nn => Laws.EncodedInRow.ldImm x nn
  | .addImm x nn => Laws.EncodedInRow.addImm x nn
  | .ldReg x y => Laws.EncodedInRow.ldReg x y
  | .orReg x y => Laws.EncodedInRow.orReg x y
  | .andReg x y => Laws.EncodedInRow.andReg x y
  | .xorReg x y => Laws.EncodedInRow.xorReg x y
  | .addReg x y => Laws.EncodedInRow.addReg x y
  | .subReg x y => Laws.EncodedInRow.subReg x y
  | .shr x => Laws.EncodedInRow.shr x
  | .subnReg x y => Laws.EncodedInRow.subnReg x y
  | .shl x => Laws.EncodedInRow.shl x
  | .sneReg x y => Laws.EncodedInRow.sneReg x y
  | .ldI nnn => Laws.EncodedInRow.ldI nnn
  | .jpV0 nnn => Laws.EncodedInRow.jpV0 nnn
  | .rnd x nn => Laws.EncodedInRow.rnd x nn
  | .drw x y n => Laws.EncodedInRow.drw x y n
  | .skp x => Laws.EncodedInRow.skp x
  | .sknp x => Laws.EncodedInRow.sknp x
  | .ldVxDt x => Laws.EncodedInRow.ldVxDt x
  | .ldVxK x => Laws.EncodedInRow.ldVxK x
  | .ldDtVx x => Laws.EncodedInRow.ldDtVx x
  | .ldStVx x => Laws.EncodedInRow.ldStVx x
  | .addI x => Laws.EncodedInRow.addI x
  | .ldF x => Laws.EncodedInRow.ldF x
  | .ldB x => Laws.EncodedInRow.ldB x
  | .stRegs x => Laws.EncodedInRow.stRegs x
  | .ldRegs x => Laws.EncodedInRow.ldRegs x

theorem encode_and_mask_rowOf (i : Instr) : encode i &&& (rowOf i).mask = (rowOf i).value :=
  eq_of_beq (encodedInRow i).2

/-- A decoded word is in its instruction's row: it is the encoding, or a shift with another `y`, which the mask of the
row leaves out. -/
theorem and_mask_of_decodeWord {w : Word} {i : Instr} (h : decodeWord w = some i) :
    w &&& (rowOf i).mask = (rowOf i).value := by
  obtain rfl | ⟨x, y, ⟨rfl, rfl⟩ | ⟨rfl, rfl⟩⟩ := eq_encode_of_decodeWord h
  · exact encode_and_mask_rowOf i
  · simp [rowOf, and_mask_F00F]
  · simp [rowOf, and_mask_F00F]

/-- A word in the row of `i` decodes to an instruction of that row, its operands read from the word. -/
theorem decodeWord_of_and_mask {w : Word} (i : Instr) (h : w &&& (rowOf i).mask = (rowOf i).value) :
    ∃ j, decodeWord w = some j ∧ rowOf j = rowOf i := by
  cases i <;> dsimp only [rowOf] at h
  case cls | ret => exact ⟨_, decodeWord_of_mask_FFFF h, rfl⟩
  case jp => exact ⟨_, decodeWord_of_opField_1 (opField_of_mask_F000 h), rfl⟩
  case call => exact ⟨_, decodeWord_of_opField_2 (opField_of_mask_F000 h), rfl⟩
  case seImm => exact ⟨_, decodeWord_of_opField_3 (opField_of_mask_F000 h), rfl⟩
  case sneImm => exact ⟨_, decodeWord_of_opField_4 (opField_of_mask_F000 h), rfl⟩
  case seReg => exact ⟨_, decodeWord_of_mask_F00F_5 h, rfl⟩
  case ldImm => exact ⟨_, decodeWord_of_opField_6 (opField_of_mask_F000 h), rfl⟩
  case addImm => exact ⟨_, decodeWord_of_opField_7 (opField_of_mask_F000 h), rfl⟩
  case ldReg | orReg | andReg | xorReg | addReg | subReg | shr | subnReg | shl =>
    exact ⟨_, decodeWord_of_mask_F00F_8 h rfl, rfl⟩
  case sneReg => exact ⟨_, decodeWord_of_mask_F00F_9 h, rfl⟩
  case ldI => exact ⟨_, decodeWord_of_opField_A (opField_of_mask_F000 h), rfl⟩
  case jpV0 => exact ⟨_, decodeWord_of_opField_B (opField_of_mask_F000 h), rfl⟩
  case rnd => exact ⟨_, decodeWord_of_opField_C (opField_of_mask_F000 h), rfl⟩
  case drw => exact ⟨_, decodeWord_of_opField_D (opField_of_mask_F000 h), rfl⟩
  case skp | sknp => exact ⟨_, decodeWord_of_mask_F0FF_E h rfl, rfl⟩
  case ldVxDt | ldVxK | ldDtVx | ldStVx | addI | ldF | ldB | stRegs | ldRegs =>
    exact ⟨_, decodeWord_of_mask_F0FF_F h rfl, rfl⟩

/-- A word in a row of the table decodes to an instruction of that row. -/
theorem decodeWord_of_mem_rows {w : Word} {r : Row} (hr : r ∈ rows) (h : w &&& r.mask = r.value) :
    ∃ i, decodeWord w = some i ∧ rowOf i = r := by
  obtain ⟨i, rfl⟩ := exists_rowOf_of_mem_rows hr
  exact decodeWord_of_and_mask i h

/-- Settles O2: a decoded word is in its instruction's row, and a word in any row decodes. -/
theorem decoderFollowsTheTable : Obligations.DecoderFollowsTheTable := by
  intro w
  refine ⟨fun i h => ⟨rowOf_mem_rows i, and_mask_of_decodeWord h⟩, fun hnone r hr hmatch => ?norow, fun hnorow => ?none⟩
  case norow =>
    obtain ⟨i, hi, -⟩ := decodeWord_of_mem_rows hr hmatch
    rw [hnone] at hi
    cases hi
  case none =>
    cases h : decodeWord w with
    | none => rfl
    | some i => exact absurd (and_mask_of_decodeWord h) (hnorow _ (rowOf_mem_rows i))

/-- Settles O3: a word in two rows would decode to an instruction of each, and it decodes to one at most. -/
theorem tableRowsAreDisjoint : Obligations.TableRowsAreDisjoint := by
  intro w r hr r' hr' h h'
  obtain ⟨i, hi, rfl⟩ := decodeWord_of_mem_rows hr h
  obtain ⟨j, hj, rfl⟩ := decodeWord_of_mem_rows hr' h'
  rw [Option.some.inj (hi.symm.trans hj)]

/-! ## The unrecognised words of each family -/

theorem decodeFixed_eq_none (w : Word) : decodeFixed w = none ↔ w ≠ 0x00E0 ∧ w ≠ 0x00EE := by
  unfold decodeFixed
  split <;> simp_all

theorem decodeAlu_eq_none (x y n : Nibble) :
    decodeAlu x y n = none ↔ n ∈ ([0x8, 0x9, 0xA, 0xB, 0xC, 0xD, 0xF] : List Nibble) := by
  obtain rfl | rfl | rfl | rfl | rfl | rfl | rfl | rfl | rfl | rfl | rfl | rfl | rfl | rfl | rfl | rfl :=
    high_digit_cases n <;> simp [decodeAlu]

theorem decodeKeySkip_eq_none (x : Nibble) (nn : Byte) :
    decodeKeySkip x nn = none ↔ nn ∉ ([0x9E, 0xA1] : List Byte) := by
  unfold decodeKeySkip
  split <;> simp_all

theorem decodeMisc_eq_none (x : Nibble) (nn : Byte) :
    decodeMisc x nn = none ↔ nn ∉ ([0x07, 0x0A, 0x15, 0x18, 0x1E, 0x29, 0x33, 0x55, 0x65] : List Byte) := by
  unfold decodeMisc
  split <;> simp_all

/-- Settles O5: the high digit selects one line of the table of R55, or a family whose every word decodes. -/
theorem unrecognisedWordsByFamily : Obligations.UnrecognisedWordsByFamily := by
  intro w
  obtain hop | hop | hop | hop | hop | hop | hop | hop | hop | hop | hop | hop | hop | hop | hop | hop :=
    high_digit_cases (opField w)
  · simp [hop, decodeWord_of_opField_0 hop, decodeFixed_eq_none]
  · simp [hop, decodeWord_of_opField_1 hop]
  · simp [hop, decodeWord_of_opField_2 hop]
  · simp [hop, decodeWord_of_opField_3 hop]
  · simp [hop, decodeWord_of_opField_4 hop]
  · simp [hop, decodeWord_of_opField_5 hop]
  · simp [hop, decodeWord_of_opField_6 hop]
  · simp [hop, decodeWord_of_opField_7 hop]
  · simp [hop, decodeWord_of_opField_8 hop, decodeAlu_eq_none]
  · simp [hop, decodeWord_of_opField_9 hop]
  · simp [hop, decodeWord_of_opField_A hop]
  · simp [hop, decodeWord_of_opField_B hop]
  · simp [hop, decodeWord_of_opField_C hop]
  · simp [hop, decodeWord_of_opField_D hop]
  · simp [hop, decodeWord_of_opField_E hop, decodeKeySkip_eq_none]
  · simp [hop, decodeWord_of_opField_F hop, decodeMisc_eq_none]

end Sys2Proof
end

section
/-! SUPPORT. The access table of 10_state.md section 12, column by column: what an instruction leaves of every element
it does not write, and what it does not depend on. -/

namespace Sys2Proof.Machine

/-! ## The MEM column -/

/-- The bytes an instruction stores from I upward: the digits of `FX33`, the registers of `FX55`, otherwise none. -/
def storedBytes (i : Instr) (s : State) : List Byte :=
  match i with
  | .ldB x => bcdDigits (getV s x)
  | .stRegs x => regList s (regCount x)
  | _ => []

theorem regCount_le (x : Nibble) : regCount x ≤ 16 := x.isLt

theorem length_storedBytes (i : Instr) (s : State) : (storedBytes i s).length = storeCount i := by
  cases i
  case stRegs x => exact length_regList s (regCount x) (regCount_le x)
  all_goals rfl

/-- Every instruction writes its stored bytes from I, and no other byte. -/
theorem effectOf_mem (i : Instr) (s : State) :
    (effectOf i s).mem = Memory.writeList s.mem s.i.toNat (storedBytes i s) := by
  cases i
  case seImm | sneImm | seReg | sneReg | skp | sknp => exact skipIf_mem _ s
  case ldVxK =>
    simp only [effectOf]
    cases lowestKey s <;> rfl
  all_goals rfl

/-- Settles O44: the bytes written are the stored ones, so an address outside their range keeps its byte. -/
theorem frameOfMemory : Obligations.FrameOfMemory := by
  intro i s t a h hout
  obtain ⟨-, rfl⟩ := (exec_eq_next ..).1 h
  rw [effectOf_mem]
  exact Memory.read_writeList_outside _ _ _ _ (length_storedBytes i s ▸ hout)

/-! ## The V column -/

@[simp] theorem getV_skipIf (c : Bool) (s : State) (z : Nibble) : getV (skipIf c s) z = getV s z := by
  rw [getV, getV, skipIf_v]

theorem getV_setVFlag_ne (s : State) {x z : Nibble} (r : Byte × Bool) (hx : z ≠ x) (hF : z ≠ 0xF#4) :
    getV (setVFlag s x r) z = getV s z := by
  rw [getV_setVFlag, if_neg hF, if_neg hx]

theorem getV_setFlag_ne (s : State) {z : Nibble} (f : Bool) (hF : z ≠ 0xF#4) : getV (setFlag s f) z = getV s z := by
  rw [getV_setFlag, if_neg hF]

/-- A register the table does not give the instruction keeps its value. -/
theorem getV_effectOf_of_not_writesV {i : Instr} {z : Nibble} (h : writesV i z = false) (s : State) :
    getV (effectOf i s) z = getV s z := by
  cases i
  case ldImm | addImm | ldReg | orReg | andReg | xorReg | rnd | ldVxDt =>
    exact getV_setV_ne s _ (by simpa [writesV] using h)
  case addReg | subReg | subnReg | shr | shl =>
    obtain ⟨hx, hF⟩ : ¬z = _ ∧ ¬z = 0xF#4 := by simpa [writesV] using h
    exact getV_setVFlag_ne s _ hx hF
  case drw | addI => exact getV_setFlag_ne _ _ (by simpa [writesV] using h)
  case ldRegs x =>
    have hz : ¬z.toNat < regCount x := fun hlt => of_decide_eq_false h (Nat.le_of_lt_succ hlt)
    exact (getV_loadRegs s (regCount x) z).trans (if_neg hz)
  case ldVxK x =>
    have hz : z ≠ x := by simpa [writesV] using h
    simp only [effectOf]
    cases lowestKey s
    · rfl
    · exact getV_setV_ne s _ hz
  case seImm | sneImm | seReg | sneReg | skp | sknp => exact getV_skipIf _ s z
  all_goals rfl

/-- Settles O43: every register write of the model is to a register of the table's V column. -/
theorem frameOfRegisters : Obligations.FrameOfRegisters := by
  intro i s t z h hz
  obtain ⟨-, rfl⟩ := (exec_eq_next ..).1 h
  exact getV_effectOf_of_not_writesV hz s

/-! ## The flag register -/

/-- A flag-writing instruction writes VF last, with a flag (00_scope.md R7). -/
theorem effectOf_of_writesFlag {i : Instr} (h : writesFlag i) (s : State) : ∃ u f, effectOf i s = setFlag u f := by
  obtain ⟨x, y, rfl | rfl | rfl⟩ | ⟨x, rfl | rfl | rfl⟩ | ⟨x, y, n, rfl⟩ := h <;> exact ⟨_, _, rfl⟩

theorem getV_setFlag_F (s : State) (f : Bool) : getV (setFlag s f) 0xF#4 = 0 ∨ getV (setFlag s f) 0xF#4 = 1 := by
  cases f
  · exact .inl (by simp)
  · exact .inr (by simp)

/-- `FX65` reaches VF only with x = F. -/
theorem F_le_toNat_iff (x : Nibble) : 15 ≤ x.toNat ↔ x = 0xF#4 := by
  constructor
  · intro h
    have := x.isLt
    exact BitVec.eq_of_toNat_eq (by simp; omega)
  · rintro rfl
    decide

/-- Settles O46: the seven flag writers end with a write of 0 or 1 to VF; any other instruction that may write VF by the
table has F as its destination. -/
theorem flagRegisterOverload : Obligations.FlagRegisterOverload := by
  intro i s t h
  obtain ⟨-, rfl⟩ := (exec_eq_next ..).1 h
  refine ⟨fun hflag => ?flag, fun hnot himm hreg hdt hk hld => ?rest⟩
  case flag =>
    obtain ⟨u, f, hu⟩ := effectOf_of_writesFlag hflag s
    rw [hu]
    exact getV_setFlag_F u f
  case rest =>
    refine getV_effectOf_of_not_writesV ?_ s
    cases i
    case ldImm x nn | addImm x nn | rnd x nn =>
      have hx : ¬0xF#4 = x := fun hF => by simpa [← hF] using himm nn
      simpa [writesV] using hx
    case ldReg x y | orReg x y | andReg x y | xorReg x y =>
      have hx : ¬0xF#4 = x := fun hF => by simpa [← hF] using hreg y
      simpa [writesV] using hx
    case ldVxDt x =>
      have hx : ¬0xF#4 = x := fun hF => hdt (hF ▸ rfl)
      simpa [writesV] using hx
    case ldVxK x =>
      have hx : ¬0xF#4 = x := fun hF => hk (hF ▸ rfl)
      simpa [writesV] using hx
    case ldRegs x => simpa [writesV, F_le_toNat_iff] using hld
    case addReg | subReg | subnReg | shr | shl | drw | addI => simp [writesFlag] at hnot
    all_goals rfl

/-! ## The other columns -/

/-- The columns I, PC, SP and STACK, FB, DT and the model's draw counter; RF, ST and K have lemmas of their own. -/
theorem effectOf_frame (i : Instr) (s : State) :
    (¬writesI i → (effectOf i s).i = s.i) ∧ (writesPc i = false → (effectOf i s).pc = s.pc) ∧
    (¬writesStack i → (effectOf i s).sp = s.sp ∧ (effectOf i s).stack = s.stack) ∧
    (¬writesDisplay i → (effectOf i s).fb = s.fb) ∧ (¬writesDt i → (effectOf i s).dt = s.dt) ∧
    ((∀ x nn, i ≠ .rnd x nn) → (effectOf i s).draws = s.draws) := by
  cases i
  case ldVxK =>
    simp only [effectOf]
    cases lowestKey s <;> simp [writesPc]
  all_goals simp [effectOf, writesI, writesPc, writesStack, writesDisplay, writesDt]

/-- Settles O45: each column's frame, read off the effects. -/
theorem frameOfTheOtherState : Obligations.FrameOfTheOtherState := by
  intro i s t h
  obtain ⟨-, rfl⟩ := (exec_eq_next ..).1 h
  obtain ⟨hi, hpc, hstack, hfb, hdt, hdraws⟩ := effectOf_frame i s
  exact ⟨hi, hpc, hstack, fun hno => ⟨hfb hno, effectOf_rf_of_not_writesDisplay hno s⟩, hdt,
    fun hno => effectOf_st_of_not_writesSt hno s, effectOf_keys i s, hdraws⟩

/-! ## What no instruction reads -/

/-- `FX18` overwrites ST without reading it. -/
theorem exec_setSt_of_writesSt {i : Instr} (h : writesSt i) (s : State) (b : Byte) :
    exec i { s with st := b } = exec i s := by
  obtain ⟨x, rfl⟩ := h
  rfl

/-- The effect of any other instruction carries ST through. -/
theorem effectOf_setSt {i : Instr} (h : ¬writesSt i) (s : State) (b : Byte) :
    effectOf i { s with st := b } = { effectOf i s with st := b } := by
  cases i
  case ldStVx x => exact absurd ⟨x, rfl⟩ h
  case seImm | sneImm | seReg | sneReg | skp | sknp =>
    exact skipIf_comm (g := fun t => { t with st := b }) (fun _ => rfl) _ s
  case ldVxK =>
    have hk : lowestKey { s with st := b } = lowestKey s := rfl
    simp only [effectOf, hk]
    cases lowestKey s <;> rfl
  all_goals rfl

/-- Settles O49: `FX18` overwrites ST, every other instruction carries it through, and no check reads it. -/
theorem soundTimerIsUnobservable : Obligations.SoundTimerIsUnobservable := fun s b i =>
  ⟨fun h => exec_setSt_of_writesSt h s b,
    fun h => exec_eq_mapNext (faultOf_congr i rfl rfl rfl) (effectOf_setSt h s b)⟩

/-- The effect of an instruction other than `CXNN` carries the draw counter through. -/
theorem effectOf_setDraws {i : Instr} (h : ∀ x nn, i ≠ .rnd x nn) (s : State) (d : Nat) :
    effectOf i { s with draws := d } = { effectOf i s with draws := d } := by
  cases i
  case rnd x nn => exact absurd rfl (h x nn)
  case seImm | sneImm | seReg | sneReg | skp | sknp =>
    exact skipIf_comm (g := fun t => { t with draws := d }) (fun _ => rfl) _ s
  case ldVxK =>
    have hk : lowestKey { s with draws := d } = lowestKey s := rfl
    simp only [effectOf, hk]
    cases lowestKey s <;> rfl
  all_goals rfl

/-- Settles O50: the draw counter reaches no check and no effect but that of `CXNN`. -/
theorem onlyRandomDependsOnTheDraw : Obligations.OnlyRandomDependsOnTheDraw := fun s d i h =>
  exec_eq_mapNext (faultOf_congr i rfl rfl rfl) (effectOf_setDraws h s d)

end Sys2Proof.Machine
end

section
/-! SUPPORT. The two invariants (20_memory.md section 1, 10_state.md section 3): every step and every action of the host
keeps memory canonical, and PC and the stack entries bounded. -/

namespace Sys2Proof.Machine

/-! ## Memory in canonical form -/

/-- Bytes written where an instruction may touch memory keep the canonical form. -/
theorem Memory.wf_writeList_of_inMemory {m : Memory} {a : Nat} {ws : List Byte} (hm : Memory.wf m)
    (ha : InMemory a ws.length) : Memory.wf (Memory.writeList m a ws) := by
  obtain hnil | hin := ha
  · rw [List.eq_nil_of_length_eq_zero hnil]
    exact hm
  · exact Memory.wf_writeList m a ws hm hin

/-- What an instruction stores is part of what its check has found in memory. -/
theorem inMemory_storeCount {i : Instr} {s : State} (h : faultOf i s = none) : InMemory s.i.toNat (storeCount i) := by
  obtain ⟨htouch, -⟩ := (faultOf_eq_none i s).1 h
  cases i
  case ldB | stRegs => exact htouch
  all_goals exact .inl rfl

theorem memoryCanonical_effectOf {i : Instr} {s : State} (hs : MemoryCanonical s) (h : faultOf i s = none) :
    MemoryCanonical (effectOf i s) := by
  rw [MemoryCanonical, effectOf_mem]
  exact Memory.wf_writeList_of_inMemory hs (length_storedBytes i s ▸ inMemory_storeCount h)

/-- Settles O51: the one write of memory in a step comes after the check that its bytes are in memory. -/
theorem stepKeepsMemoryCanonical : Obligations.StepKeepsMemoryCanonical := by
  intro s t hs h
  obtain ⟨-, ⟨i, u, -, hexec, rfl⟩ | ⟨-, rfl⟩⟩ := step_cases h
  · obtain ⟨hfault, rfl⟩ := (exec_eq_next ..).1 hexec
    exact memoryCanonical_effectOf (s := advance s) hs hfault
  · exact hs

/-! ## PC and the stack entries bounded -/

/-- From a PC that leaves room for a fetch the advance does not wrap. -/
theorem toNat_advance_pc {s : State} (h : Fetchable s) : (advance s).pc.toNat = s.pc.toNat + 2 := by
  have hpc : s.pc.toNat ≤ 0xFFE := h
  have hadd : (s.pc + 2).toNat = (s.pc.toNat + 2) % 65536 := BitVec.toNat_add ..
  rw [advance_pc, hadd]
  omega

/-- The sum of `BNNN` fits in 16 bits, so nothing of it is lost (R79). -/
theorem toNat_addrPlusV0 (nnn : Addr12) (s : State) :
    (addrPlusV0 nnn s).toNat = nnn.toNat + (getV s 0).toNat := by
  have hnnn := nnn.isLt
  have hv := (getV s 0).isLt
  rw [addrPlusV0, BitVec.toNat_add, toNat_addrOperand, BitVec.toNat_setWidth]
  omega

/-- PC after an execute phase: a jump's target, the popped entry, or within 2 of the advanced PC. -/
theorem effectOf_pc_le (i : Instr) {s : State} (hlow : 2 ≤ s.pc.toNat) (hhigh : s.pc.toNat ≤ 0x1000)
    (hstack : ∀ k : Fin 16, (s.stack.get k).toNat ≤ 0x1000) : (effectOf i s).pc.toNat ≤ 0x10FE := by
  have hskip : ∀ c, (skipIf c s).pc.toNat ≤ 0x10FE := fun c => by
    have hadd : (s.pc + 2).toNat = (s.pc.toNat + 2) % 65536 := BitVec.toNat_add ..
    rw [skipIf_pc]
    split <;> omega
  by_cases hpc : writesPc i = false
  · obtain ⟨-, hframe, -⟩ := effectOf_frame i s
    rw [hframe hpc]
    omega
  cases i
  case jp nnn | call nnn =>
    have hnnn := nnn.isLt
    simp only [effectOf, jumpTo_pc, toNat_addrOperand]
    omega
  case jpV0 nnn =>
    have hnnn := nnn.isLt
    have hv := (getV s 0).isLt
    simp only [effectOf, jumpTo_pc, toNat_addrPlusV0]
    omega
  case ret => exact (hstack ⟨s.sp.val - 1, by omega⟩).trans (by decide)
  case seImm | sneImm | seReg | sneReg | skp | sknp => exact hskip _
  case ldVxK =>
    simp only [effectOf]
    cases lowestKey s with
    | none =>
      have hsub : (s.pc - 2).toNat = s.pc.toNat - 2 := BitVec.toNat_sub_of_le hlow
      rw [rewind_pc, hsub]
      omega
    | some k =>
      rw [setV_pc]
      omega
  all_goals exact absurd rfl hpc

/-- A push writes the entry SP names and no other. -/
theorem pushPc_stack_get (s : State) (k : Fin 16) :
    (pushPc s).stack.get k = if k.val = s.sp.val then s.pc else s.stack.get k := by
  simp [Vector.get_eq_getElem, Vector.getElem_setIfInBounds, eq_comm]

/-- A call stores the advanced PC in one entry; no other instruction changes an entry. -/
theorem effectOf_stack_le (i : Instr) {s : State} (hpc : s.pc.toNat ≤ 0x1000)
    (hstack : ∀ k : Fin 16, (s.stack.get k).toNat ≤ 0x1000) (k : Fin 16) :
    ((effectOf i s).stack.get k).toNat ≤ 0x1000 := by
  by_cases hwrites : writesStack i
  · obtain rfl | ⟨nnn, rfl⟩ := hwrites
    · exact hstack k
    · rw [effectOf, jumpTo_stack, pushPc_stack_get]
      split
      · exact hpc
      · exact hstack k
  · obtain ⟨-, -, hframe, -⟩ := effectOf_frame i s
    rw [(hframe hwrites).2]
    exact hstack k

/-- Settles O52: a completed step has fetched, so its advanced PC is from 2 to 0x1000, from where every instruction
keeps the bounds. -/
theorem stepKeepsPcBounded : Obligations.StepKeepsPcBounded := by
  intro s t ⟨_, hstack⟩ h
  obtain ⟨hfetch, hcases⟩ := step_cases h
  have hpc := toNat_advance_pc hfetch
  have hhigh : (advance s).pc.toNat ≤ 0x1000 := by
    have : s.pc.toNat ≤ 0xFFE := hfetch
    omega
  obtain ⟨i, u, -, hexec, rfl⟩ | ⟨-, rfl⟩ := hcases
  · obtain ⟨-, rfl⟩ := (exec_eq_next ..).1 hexec
    exact ⟨effectOf_pc_le i (hpc ▸ Nat.le_add_left ..) hhigh hstack, effectOf_stack_le i hhigh hstack⟩
  · exact ⟨hhigh.trans (by decide), hstack⟩

/-! ## Reset and the host -/

theorem memoryCanonical_reset : MemoryCanonical State.reset := Memory.wf_nil

theorem pcBounded_reset : PcBounded State.reset := by
  refine ⟨by decide, fun k => ?_⟩
  simp [State.reset, Vector.get_eq_getElem]

/-- An accepted program ends at 0xFFF at the latest. -/
theorem memoryCanonical_loadProgram {s t : State} {bytes : List Byte} (h : loadProgram bytes s = .ok t)
    (hs : MemoryCanonical s) : MemoryCanonical t := by
  obtain ⟨hlength, rfl⟩ := (loadProgram_eq_ok ..).1 h
  exact Memory.wf_writeList_of_inMemory hs (.inr (by omega))

theorem pcBounded_loadProgram {s t : State} {bytes : List Byte} (h : loadProgram bytes s = .ok t)
    (hs : PcBounded s) : PcBounded t := by
  obtain ⟨-, rfl⟩ := (loadProgram_eq_ok ..).1 h
  exact hs

theorem withFetchWord_of_fetchable {s : State} (h : Fetchable s) (nbits w : Nat) :
    s.withFetchWord nbits w = { s with mem := Memory.writeList s.mem s.pc.toNat (tableWordBytes nbits w) } := by
  rw [State.withFetchWord, placeAtPc, (fetchFault_eq_none s).2 h]

theorem withFetchWord_of_not_fetchable {s : State} (h : ¬Fetchable s) (nbits w : Nat) :
    s.withFetchWord nbits w = s := by
  obtain ⟨f, hf⟩ := Option.ne_none_iff_exists'.1 (mt (fetchFault_eq_none s).1 h)
  rw [State.withFetchWord, placeAtPc, hf]

theorem memoryCanonical_withFetchWord {s : State} (hs : MemoryCanonical s) (nbits w : Nat) :
    MemoryCanonical (s.withFetchWord nbits w) := by
  by_cases hfetch : Fetchable s
  · have hpc : s.pc.toNat ≤ 0xFFE := hfetch
    rw [withFetchWord_of_fetchable hfetch]
    exact Memory.wf_writeList_of_inMemory hs (.inr (Nat.add_le_add_right hpc 2))
  · rwa [withFetchWord_of_not_fetchable hfetch]

theorem pcBounded_withFetchWord {s : State} (hs : PcBounded s) (nbits w : Nat) :
    PcBounded (s.withFetchWord nbits w) := by
  by_cases hfetch : Fetchable s
  · rwa [withFetchWord_of_fetchable hfetch]
  · rwa [withFetchWord_of_not_fetchable hfetch]

/-- Settles O53: the host's writes to memory are within it, and none of its actions writes PC or the stack but reset,
which leaves both in bounds. -/
theorem resetAndHostKeepInvariants : Obligations.ResetAndHostKeepInvariants :=
  ⟨⟨memoryCanonical_reset, pcBounded_reset⟩,
    fun _ => ⟨memoryCanonical_reset, pcBounded_reset⟩,
    fun _ _ _ h => ⟨memoryCanonical_loadProgram h, pcBounded_loadProgram h⟩,
    fun _ _ _ => ⟨id, id⟩,
    fun _ => ⟨id, id⟩,
    fun _ nbits w => ⟨fun hs => memoryCanonical_withFetchWord hs nbits w, fun hs => pcBounded_withFetchWord hs nbits w⟩⟩

end Sys2Proof.Machine
end

section
/-! SUPPORT. The step as a whole (40_step_cycle.md, 60_exceptions.md): the execute phase and the tick put together,
when a step completes, with what it faults, and what its tick acts on. -/

namespace Sys2Proof.Machine

/-! ## The step put together -/

theorem dropEvents_finishOutcome (o : Host.Outcome State Fault Refusal) :
    dropEvents (finishOutcome o) = mapNext tick o := by
  cases o <;> rfl

/-- The step of a decoded instruction is its execute phase, then the tick of the state it leaves. -/
theorem step_eq_mapNext_tick {s : State} {i : Instr} (hfetch : Fetchable s)
    (hdecode : decodeWord (fetchWord s) = some i) : step s = mapNext tick (exec i (advance s)) := by
  rw [step, cycle_of_decoded hfetch hdecode, dropEvents_finishOutcome]

theorem cycle_of_unrecognised {s : State} (hfetch : Fetchable s) (hdecode : decodeWord (fetchWord s) = none) :
    cycle s = .next (tick (advance s), .unknownOpcode (fetchWord s) s.pc :: tickEvents (advance s)) := by
  have hpc : (advance s).pc - 2 = s.pc := BitVec.add_sub_cancel ..
  simp only [cycle_of_fetchable s hfetch, hdecode, unknownEvents, hpc]
  rfl

theorem step_of_unrecognised {s : State} (hfetch : Fetchable s) (hdecode : decodeWord (fetchWord s) = none) :
    step s = .next (tick (advance s)) := by
  rw [step, cycle_of_unrecognised hfetch hdecode]
  rfl

theorem step_of_not_fetchable {s : State} (h : ¬Fetchable s) :
    step s = .fault (.memRange (max s.pc.toNat 0x1000)) := by
  rw [step, cycle_of_not_fetchable s h]
  rfl

theorem mapNext_eq_fault (g : State → State) (o : Host.Outcome State Fault Refusal) (f : Fault) :
    mapNext g o = .fault f ↔ o = .fault f := by
  cases o <;> simp [mapNext]

theorem mapNext_eq_refused (g : State → State) (o : Host.Outcome State Fault Refusal) (r : Refusal) :
    mapNext g o = .refused r ↔ o = .refused r := by
  cases o <;> simp [mapNext]

theorem exists_mapNext_eq_next (g : State → State) (o : Host.Outcome State Fault Refusal) :
    (∃ t, mapNext g o = .next t) ↔ ∃ u, o = .next u := by
  cases o <;> simp [mapNext]

/-- The fetched bytes decode to an instruction exactly when the fetched word does. -/
theorem decodeWord_of_decode_fetchBytes {s : State} {i : Instr} (h : decode (fetchBytes s) = .ok (i, [])) :
    decodeWord (fetchWord s) = some i := by
  rw [decode_fetchBytes] at h
  split at h <;> cases h
  assumption

/-- Settles O7: the step is the execute phase after the advance, then the tick, in each of the three outcomes. -/
theorem stepRunsTheDecodedInstruction : Obligations.StepRunsTheDecodedInstruction := by
  intro s i hfetch hdecode
  have hadvance : { s with pc := s.pc + 2 } = advance s := rfl
  rw [step_eq_mapNext_tick hfetch (decodeWord_of_decode_fetchBytes hdecode), hadvance]
  cases exec i (advance s) <;> rfl

/-- Settles O8: the advance and the tick are the whole step, and the diagnostic comes before the tick's event. -/
theorem unrecognisedWordOnlyAdvances : Obligations.UnrecognisedWordOnlyAdvances := by
  intro s hfetch hdecode
  refine ⟨step_of_unrecognised hfetch hdecode, ?events⟩
  case events =>
    rw [stepEvents, cycle_of_unrecognised hfetch hdecode]
    rfl

/-! ## The first address outside memory -/

/-- The address a range fault reports is the first of the access that exceeds 0xFFF. -/
theorem firstOutside_max {a cnt : Nat} (hcnt : cnt ≠ 0) (hout : 0x1000 < a + cnt) :
    FirstOutside a cnt (max a 0x1000) :=
  ⟨Nat.le_max_left .., by omega, by omega, fun c _ hc => by omega⟩

theorem rangeFault_eq_some {a cnt : Nat} {f : Fault} (h : rangeFault a cnt = some f) :
    ∃ b, f = .memRange b ∧ FirstOutside a cnt b := by
  have hout : ¬(cnt = 0 ∨ a + cnt ≤ 0x1000) := fun hin => by
    rw [(rangeFault_eq_none a cnt).2 hin] at h
    cases h
  rw [rangeFault_of_out a cnt (by omega) (by omega)] at h
  cases h
  exact ⟨_, rfl, firstOutside_max (by omega) (by omega)⟩

theorem firstOutside_pc {s : State} (h : ¬Fetchable s) : FirstOutside s.pc.toNat 2 (max s.pc.toNat 0x1000) := by
  have hpc : ¬s.pc.toNat ≤ 0xFFE := h
  exact firstOutside_max (by decide) (by omega)

/-- Settles O9: the fetch is the first thing a step does, and its fault leaves no event. -/
theorem fetchOutsideMemoryFaults : Obligations.FetchOutsideMemoryFaults := by
  intro s hpc
  have hfetch : ¬Fetchable s := Nat.not_le.2 hpc
  refine ⟨_, step_of_not_fetchable hfetch, firstOutside_pc hfetch, ?events⟩
  case events => rw [stepEvents, cycle_of_not_fetchable s hfetch]

/-! ## When a step completes and with what it faults -/

/-- Settles O13: no execute phase is refused, and nothing else in a step can be. -/
theorem noStepIsRefused : Obligations.NoStepIsRefused := by
  intro s r h
  by_cases hfetch : Fetchable s
  · cases hdecode : decodeWord (fetchWord s) with
    | some i =>
      rw [step_eq_mapNext_tick hfetch hdecode, mapNext_eq_refused] at h
      exact exec_ne_refused _ _ _ h
    | none =>
      rw [step_of_unrecognised hfetch hdecode] at h
      cases h
  · rw [step_of_not_fetchable hfetch] at h
    cases h

/-- An instruction completes exactly when its duty is kept; a duty does not depend on PC. -/
theorem exec_advance_completes_iff (i : Instr) (s : State) : (∃ u, exec i (advance s) = .next u) ↔ Duty i s := by
  simp only [exec_eq_next, exists_and_left, exists_eq', and_true]
  exact faultOf_eq_none i (advance s)

/-- Settles O14: the fetch completes when PC leaves room, the execute phase when the duty is kept, and an unrecognised
word always. -/
theorem stepCompletesExactlyWhenSafe : Obligations.StepCompletesExactlyWhenSafe := by
  intro s
  by_cases hfetch : Fetchable s
  · cases hdecode : decodeWord (fetchWord s) with
    | some i =>
      rw [step_eq_mapNext_tick hfetch hdecode, exists_mapNext_eq_next, exec_advance_completes_iff]
      simp [SafeStep, hfetch, hdecode]
    | none =>
      rw [step_of_unrecognised hfetch hdecode]
      simp [SafeStep, hfetch, hdecode]
  · rw [step_of_not_fetchable hfetch]
    simp [SafeStep, hfetch]

/-- Every fault of a check: a range fault of the touched bytes, or the stack's or the key index's. -/
theorem faultOf_eq_some {i : Instr} {s : State} {f : Fault} (h : faultOf i s = some f) :
    (∃ a, f = .memRange a ∧ FirstOutside s.i.toNat (touchCount i) a) ∨
    (f = .stackOverflow 16 ∧ s.sp.val = 16 ∧ ∃ nnn, i = .call nnn) ∨
    (f = .stackUnderflow 0 ∧ s.sp.val = 0 ∧ i = .ret) ∨
    ∃ x, f = .keyIndexRange (getV s x).toNat ∧ 15 < (getV s x).toNat ∧ (i = .skp x ∨ i = .sknp x) := by
  cases i
  case call nnn =>
    obtain ⟨hsp, hf⟩ := (pushFault_eq_some s f).1 h
    exact .inr (.inl ⟨hf, hsp, nnn, rfl⟩)
  case ret =>
    obtain ⟨hsp, hf⟩ := (popFault_eq_some s f).1 h
    exact .inr (.inr (.inl ⟨hf, hsp, rfl⟩))
  case skp x =>
    obtain ⟨hkey, hf⟩ := (keyFault_eq_some _ f).1 h
    exact .inr (.inr (.inr ⟨x, hf, hkey, .inl rfl⟩))
  case sknp x =>
    obtain ⟨hkey, hf⟩ := (keyFault_eq_some _ f).1 h
    exact .inr (.inr (.inr ⟨x, hf, hkey, .inr rfl⟩))
  all_goals exact .inl (rangeFault_eq_some h)

/-- Settles O15: a fault is the fetch's, or that of the check of the decoded instruction. -/
theorem faultsAreTheFourModelFaults : Obligations.FaultsAreTheFourModelFaults := by
  intro s f h
  by_cases hfetch : Fetchable s
  · cases hdecode : decodeWord (fetchWord s) with
    | some i =>
      rw [step_eq_mapNext_tick hfetch hdecode, mapNext_eq_fault, exec_eq_fault] at h
      obtain ⟨a, hf, ha⟩ | ⟨hf, hsp, nnn, rfl⟩ | ⟨hf, hsp, rfl⟩ | ⟨x, hf, hkey, hi⟩ := faultOf_eq_some h
      · exact .inl ⟨a, hf, .inr ⟨hfetch, i, rfl, ha⟩⟩
      · exact .inr ⟨hfetch, .inl ⟨hf, hsp, nnn, rfl⟩⟩
      · exact .inr ⟨hfetch, .inr (.inl ⟨hf, hsp, rfl⟩)⟩
      · exact .inr ⟨hfetch, .inr (.inr ⟨x, hf, hkey, hi.imp (congrArg some) (congrArg some)⟩)⟩
    | none =>
      rw [step_of_unrecognised hfetch hdecode] at h
      cases h
  · rw [step_of_not_fetchable hfetch] at h
    cases h
    exact .inl ⟨_, rfl, .inl ⟨Nat.not_le.1 hfetch, firstOutside_pc hfetch⟩⟩

/-! ## The diagnostic -/

/-- Settles O12: the event of a tick is no diagnostic, so a diagnostic is the one an unrecognised word's step begins
with. -/
theorem diagnosticOnlyForUnrecognisedWords : Obligations.DiagnosticOnlyForUnrecognisedWords := by
  intro s t ev w a h
  obtain ⟨-, ⟨i, u, hdecode, -, -, rfl⟩ | ⟨hdecode, -, rfl⟩⟩ := cycle_cases h
  · simp [hdecode, unknownOpcode_not_mem_tickEvents]
  · simp [hdecode, unknownOpcode_not_mem_tickEvents]

/-! ## The delay timer's tick -/

theorem dtBeforeTick_of_ldDtVx {s : State} {x : Nibble} (hdecode : decodeWord (fetchWord s) = some (.ldDtVx x)) :
    dtBeforeTick s = getV s x := by
  rw [dtBeforeTick, hdecode]

theorem dtBeforeTick_of_not_writesDt {s : State} (h : ∀ i, decodeWord (fetchWord s) = some i → ¬writesDt i) :
    dtBeforeTick s = s.dt := by
  unfold dtBeforeTick
  split
  next x hdecode => exact absurd ⟨x, rfl⟩ (h _ hdecode)
  next => rfl

/-- The tick of a decoded instruction's step acts on the DT its execute phase left. -/
theorem dtBeforeTick_of_decoded {s : State} {i : Instr} (hdecode : decodeWord (fetchWord s) = some i) :
    dtBeforeTick s = (effectOf i (advance s)).dt := by
  by_cases hwrites : writesDt i
  · obtain ⟨x, rfl⟩ := hwrites
    exact dtBeforeTick_of_ldDtVx hdecode
  · have hnot : ∀ j, decodeWord (fetchWord s) = some j → ¬writesDt j := fun j hj =>
      Option.some.inj (hdecode.symm.trans hj) ▸ hwrites
    obtain ⟨-, -, -, -, hframe, -⟩ := effectOf_frame i (advance s)
    rw [dtBeforeTick_of_not_writesDt hnot, hframe hwrites, advance_dt]

/-- A completed step counts down the DT its tick acts on. -/
theorem step_dt {s t : State} (h : step s = .next t) : t.dt = countDown (dtBeforeTick s) := by
  obtain ⟨-, ⟨i, u, hdecode, hexec, rfl⟩ | ⟨hdecode, rfl⟩⟩ := step_cases h
  · obtain ⟨-, rfl⟩ := (exec_eq_next ..).1 hexec
    rw [tick_dt, dtBeforeTick_of_decoded hdecode]
  · have hnone : ∀ i, decodeWord (fetchWord s) = some i → ¬writesDt i := fun i hi => by
      rw [hdecode] at hi
      cases hi
    rw [tick_dt, advance_dt, dtBeforeTick_of_not_writesDt hnone]

theorem exec_ldVxDt (s : State) (x : Nibble) : exec (.ldVxDt x) s = .next (setV s x s.dt) := rfl

/-- Settles O10: both timers count down from what the execute phase left, and `FX07` has read DT by then. -/
theorem timersTickOncePerStep : Obligations.TimersTickOncePerStep := by
  intro s t h
  obtain ⟨ev, hcycle⟩ := (step_eq_next s t).1 h
  refine ⟨?delay, ?sound, fun x hdecode => ?read⟩
  case delay => rw [step_dt h, toNat_countDown]
  case sound => rw [cycle_st hcycle, toNat_countDown]
  case read =>
    obtain ⟨rfl, -⟩ := cycle_eq_next_of_decoded hcycle hdecode (exec_ldVxDt (advance s) x)
    exact getV_setV_same (advance s) x s.dt

/-! ## The idle loop -/

/-- Settles O23: the jump undoes the advance, so only the tick is left. -/
theorem jumpToItselfIsIdle : Obligations.JumpToItselfIsIdle := by
  intro s nnn hfetch hdecode htarget
  have hpc : BitVec.ofNat 16 nnn.toNat = s.pc := by rw [htarget, BitVec.ofNat_toNat, BitVec.setWidth_eq]
  have hexec : exec (.jp nnn) (advance s) = .next s := by rw [exec_jp_eq, hpc]; rfl
  exact ⟨tick s, step_of_decoded hfetch hdecode hexec, rfl⟩

end Sys2Proof.Machine
end

section
/-! SUPPORT. Control transfer with the stack and the register skips (41_control_flow.md sections 2 to 4), and the key
skips (45_keys_timers.md section 1). -/

namespace Sys2Proof.Machine

/-- Settles O17: the sum is taken in 16 bits, which hold it. -/
theorem jumpPlusV0IsNotMasked : Obligations.JumpPlusV0IsNotMasked := fun s nnn =>
  ⟨jumpTo s (addrPlusV0 nnn s), rfl, toNat_addrPlusV0 nnn s, rfl⟩

/-! ## Call and return -/

theorem pushPc_sp_val {s : State} (h : s.sp.val < 16) : (pushPc s).sp.val = s.sp.val + 1 :=
  Nat.mod_eq_of_lt (Nat.succ_lt_succ h)

theorem exec_call_eq_next (s t : State) (nnn : Addr12) :
    exec (.call nnn) s = .next t ↔ s.sp.val ≠ 16 ∧ jumpTo (pushPc s) (addrOperand nnn) = t := by
  rw [exec_eq_next, ← pushFault_eq_none]
  rfl

/-- Settles O18: below 16 entries the push is within the stack; at 16 the check faults. -/
theorem callPushesTheReturnAddress : Obligations.CallPushesTheReturnAddress := by
  refine fun s nnn => ⟨fun hsp => ⟨_, (exec_call_eq_next ..).2 ⟨hsp.ne, rfl⟩, ?target, ?pointer, ?top, ?others, rfl⟩,
    fun hfull => ?fault⟩
  case target => exact toNat_addrOperand nnn
  case pointer => exact pushPc_sp_val hsp
  case top => exact (pushPc_stack_get s ⟨s.sp.val, hsp⟩).trans (if_pos rfl)
  case others => exact fun k hk => (pushPc_stack_get s k).trans (if_neg hk)
  case fault => exact (exec_eq_fault ..).2 ((pushFault_eq_some ..).2 ⟨hfull, rfl⟩)

/-- `00EE` with `k + 1` entries in use: PC is the top entry, `k` are left, and the entry keeps its value. -/
theorem exec_ret_of_sp {s : State} {k : Fin 16} (hsp : s.sp.val = k.val + 1) :
    exec .ret s = .next { s with pc := s.stack.get k, sp := k.castSucc } := by
  have hpop : s.sp.val - 1 = k.val := by omega
  have hk : Fin.ofNat 17 k.val = k.castSucc := Fin.ext (Nat.mod_eq_of_lt k.castSucc.isLt)
  refine (exec_eq_next ..).2 ⟨(popFault_eq_none s).2 (by omega), ?_⟩
  simp only [effectOf, popPc, hpop, hk, Vector.get_eq_getElem]

/-- Settles O19: the top entry is the one below SP; with none the check faults. -/
theorem returnPopsTheTopEntry : Obligations.ReturnPopsTheTopEntry := fun _ =>
  ⟨fun _ hsp => ⟨_, exec_ret_of_sp hsp, rfl, rfl, rfl⟩,
    fun hempty => (exec_eq_fault ..).2 ((popFault_eq_some ..).2 ⟨hempty, rfl⟩)⟩

/-- Settles O20: the entry the return pops is the one the call wrote. -/
theorem returnUndoesCall : Obligations.ReturnUndoesCall := by
  intro s t u nnn hcall husp hustack
  obtain ⟨hfull, rfl⟩ := (exec_call_eq_next ..).1 hcall
  have hsp : s.sp.val < 16 := by omega
  have hret : exec .ret u = .next { u with pc := u.stack.get ⟨s.sp.val, hsp⟩, sp := s.sp } :=
    exec_ret_of_sp (k := ⟨s.sp.val, hsp⟩) ((congrArg Fin.val husp).trans (pushPc_sp_val hsp))
  have htop : u.stack.get ⟨s.sp.val, hsp⟩ = s.pc := by
    rw [hustack, jumpTo_stack, pushPc_stack_get, if_pos rfl]
  rw [hret, htop]

/-! ## Register skips -/

theorem exec_seReg_eq (s : State) (x y : Nibble) :
    exec (.seReg x y) s = .next { s with pc := if getV s x = getV s y then s.pc + 2 else s.pc } := by
  have hskip : exec (.seReg x y) s = .next (skipIf (getV s x == getV s y) s) := rfl
  rw [hskip, skipIf_eq]
  simp only [beq_iff_eq]

theorem exec_sneReg_eq (s : State) (x y : Nibble) :
    exec (.sneReg x y) s = .next { s with pc := if getV s x = getV s y then s.pc else s.pc + 2 } := by
  have hskip : exec (.sneReg x y) s = .next (skipIf (getV s x != getV s y) s) := rfl
  rw [hskip, skipIf_eq]
  simp only [bne_iff_ne, ne_eq, ite_not]

/-- Settles O22: families 5 and 9 test the low digit, and both skips write PC alone. -/
theorem registerSkipsAddTwoWhenTheConditionHolds : Obligations.RegisterSkipsAddTwoWhenTheConditionHolds :=
  ⟨fun _ => decodeWord_of_opField_5, fun _ => decodeWord_of_opField_9,
    fun s x y => ⟨exec_seReg_eq s x y, exec_sneReg_eq s x y⟩⟩

/-! ## Key skips -/

/-- A key skip whose index names a key `k`: the check passes and the skip tests K[k]. -/
theorem exec_skp_of_key {s : State} {x : Nibble} {k : Fin 16} (h : (getV s x).toNat = k.val) :
    exec (.skp x) s = .next (skipIf (s.keys.get k) s) := by
  have hkey : keyFault (getV s x) = none := (keyFault_eq_none _).2 (h ▸ Nat.le_of_lt_succ k.isLt)
  refine (exec_eq_next ..).2 ⟨hkey, ?_⟩
  rw [effectOf, h, keyDown_eq]

theorem exec_sknp_of_key {s : State} {x : Nibble} {k : Fin 16} (h : (getV s x).toNat = k.val) :
    exec (.sknp x) s = .next (skipIf (!s.keys.get k) s) := by
  have hkey : keyFault (getV s x) = none := (keyFault_eq_none _).2 (h ▸ Nat.le_of_lt_succ k.isLt)
  refine (exec_eq_next ..).2 ⟨hkey, ?_⟩
  rw [effectOf, h, keyDown_eq]

/-- Settles O39: an index of at most 15 names a key, whose state decides the skip; above 15 the check faults. -/
theorem keySkips : Obligations.KeySkips := by
  refine fun s x => ⟨fun k hk => ⟨?pressed, ?released⟩, fun hout => ⟨?skpFault, ?sknpFault⟩⟩
  case pressed => rw [exec_skp_of_key hk, skipIf_eq]
  case released =>
    rw [exec_sknp_of_key hk, skipIf_eq]
    cases s.keys.get k <;> rfl
  case skpFault => exact (exec_eq_fault ..).2 ((keyFault_eq_some ..).2 ⟨hout, rfl⟩)
  case sknpFault => exact (exec_eq_fault ..).2 ((keyFault_eq_some ..).2 ⟨hout, rfl⟩)

end Sys2Proof.Machine
end

section
/-! SUPPORT. The instructions that write a result and the flag (42_alu.md sections 3 and 4, 43_index_memory.md
section 1), and the register loads of the random byte and of DT. -/

namespace Sys2Proof.Machine

/-! ## Results and flags as numbers -/

/-- The difference of `8XY5` and `8XY7` is the exact one mod 256. -/
theorem toNat_subBorrow (a b : Byte) : ((subBorrow a b).1.toNat : Int) = (a.toNat - b.toNat : Int) % 256 := by
  have ha := a.isLt
  have hb := b.isLt
  have hdiff : (subBorrow a b).1.toNat = (a.toNat + 256 - b.toNat) % 256 := BitVec.toNat_ofNat _ _
  rw [hdiff]
  omega

theorem toNat_shiftRight (a : Byte) : (shiftRight a).1.toNat = a.toNat / 2 := by
  simp [shiftRight, Nat.shiftRight_eq_div_pow]

theorem toNat_shiftLeft (a : Byte) : (shiftLeft a).1.toNat = a.toNat * 2 % 256 := by
  simp [shiftLeft, Nat.shiftLeft_eq]

/-- The flag of `8XY6` is the value of bit 0. -/
theorem toNat_shiftRight_flag (a : Byte) : (if (shiftRight a).2 then 1 else 0 : Byte).toNat = a.toNat % 2 := by
  have hbit : (shiftRight a).2 = decide (a.toNat % 2 = 1) := Nat.testBit_zero a.toNat
  rw [hbit]
  split <;> simp_all

/-- The flag of `8XYE` is the value of bit 7. -/
theorem toNat_shiftLeft_flag (a : Byte) : (if (shiftLeft a).2 then 1 else 0 : Byte).toNat = a.toNat / 128 := by
  have hbit : (shiftLeft a).2 = decide (a.toNat / 128 % 2 = 1) := Nat.testBit_eq_decide_div_mod_eq
  have ha := a.isLt
  rw [hbit]
  split <;> simp_all <;> omega

/-- A flag taken from a comparison is 1 when it holds and 0 when not. -/
theorem flag_decide (p : Prop) [Decidable p] : (if decide p then 1 else 0 : Byte) = if p then 1 else 0 := by
  simp only [decide_eq_true_eq]

/-! ## The instructions -/

/-- An instruction whose whole effect is a result to V[x], then a flag to VF, completes with every fact `Q` of the flag
true of VF, every fact `P` of the result true of V[x] when x is not F, every other register as it was, and nothing but
the register file changed. -/
theorem exec_writes_result_and_flag {i : Instr} {s : State} {x : Nibble} {r : Byte × Bool} (Q P : Byte → Prop)
    (hexec : exec i s = .next (setVFlag s x r)) (hQ : Q (if r.2 then 1 else 0)) (hP : P r.1) :
    ∃ t, exec i s = .next t ∧ Q (getV t 0xF#4) ∧ (x ≠ 0xF#4 → P (getV t x)) ∧
      (∀ z, z ≠ x → z ≠ 0xF#4 → getV t z = getV s z) ∧ t = { s with v := t.v } := by
  refine ⟨setVFlag s x r, hexec, ?flag, fun hx => ?result, fun z hzx hzF => getV_setVFlag_ne s r hzx hzF,
    setVFlag_eq s x r⟩
  case flag => rwa [getV_setVFlag, if_pos rfl]
  case result => rwa [getV_setVFlag, if_neg hx, if_pos rfl]

/-- Settles O26: the sum and the two differences, each with the comparison of the old operands as its flag. -/
theorem addAndSubtractWithFlag : Obligations.AddAndSubtractWithFlag := by
  refine fun s x y => ⟨?add, ?sub, ?subn⟩
  case add =>
    exact exec_writes_result_and_flag (· = if 255 < (getV s x).toNat + (getV s y).toNat then 1 else 0)
      (fun r => r.toNat = ((getV s x).toNat + (getV s y).toNat) % 256) rfl (flag_decide _) (toNat_addCarry ..)
  case sub =>
    exact exec_writes_result_and_flag (· = if (getV s y).toNat ≤ (getV s x).toNat then 1 else 0)
      (fun r => (r.toNat : Int) = ((getV s x).toNat - (getV s y).toNat : Int) % 256) rfl (flag_decide _)
      (toNat_subBorrow ..)
  case subn =>
    exact exec_writes_result_and_flag (· = if (getV s x).toNat ≤ (getV s y).toNat then 1 else 0)
      (fun r => (r.toNat : Int) = ((getV s y).toNat - (getV s x).toNat : Int) % 256) rfl (flag_decide _)
      (toNat_subBorrow ..)

/-- Settles O27: a shift by one is a division or a doubling, and the bit that leaves is what it loses. -/
theorem shiftsMoveOneBitIntoTheFlag : Obligations.ShiftsMoveOneBitIntoTheFlag := by
  refine fun s x => ⟨?right, ?left⟩
  case right =>
    exact exec_writes_result_and_flag (fun f => f.toNat = (getV s x).toNat % 2)
      (fun r => r.toNat = (getV s x).toNat / 2) rfl (toNat_shiftRight_flag _) (toNat_shiftRight _)
  case left =>
    exact exec_writes_result_and_flag (fun f => f.toNat = (getV s x).toNat / 128)
      (fun r => r.toNat = (getV s x).toNat * 2 % 256) rfl (toNat_shiftLeft_flag _) (toNat_shiftLeft _)

/-- Settles O30: I keeps 16 bits of the sum, and the flag, written last, compares the whole sum. -/
theorem addToIndexFlagsAboveTwelveBits : Obligations.AddToIndexFlagsAboveTwelveBits := by
  refine fun s x => ⟨setFlag { s with i := (addIndex s.i (getV s x)).1 } (addIndex s.i (getV s x)).2, rfl,
    ?index, ?flag, fun z hz => getV_setFlag_ne _ _ hz, rfl⟩
  case index => exact BitVec.toNat_ofNat _ _
  case flag => rw [getV_setFlag, if_pos rfl, addIndex, flag_decide]

/-- Settles O28: whatever the byte of this draw is, the mask is what V[x] keeps of it. -/
theorem randomByteIsMasked : Obligations.RandomByteIsMasked := by
  refine fun s x nn => ⟨countDraw (setV s x (rndOf s &&& nn)), rfl, ?byte, fun k hk => ?masked,
    fun z hz => getV_setV_ne s _ hz, rfl⟩
  case byte => exact getV_setV_same s x _
  case masked => rw [getV_countDraw, getV_setV_same, BitVec.getLsbD_and, hk, Bool.and_false]

/-- Settles O41: the one write is V[x] <- DT. -/
theorem readDelayTimer : Obligations.ReadDelayTimer := fun s x =>
  exec_writes_one_register (· = s.dt) (exec_ldVxDt s x) rfl

end Sys2Proof.Machine
end

section
/-! SUPPORT. The memory instructions `FX33`, `FX55`, `FX65` (43_index_memory.md sections 2 and 3): what they store and
load from I, and the fault of a range that leaves memory. -/

namespace Sys2Proof.Machine

/-! ## The check of a memory instruction -/

/-- An instruction checked by its range alone completes when the bytes it touches are in memory. -/
theorem exec_of_inMemory {i : Instr} {s : State} (hcheck : faultOf i s = rangeFault s.i.toNat (touchCount i))
    (h : InMemory s.i.toNat (touchCount i)) : exec i s = .next (effectOf i s) :=
  (exec_eq_next ..).2 ⟨hcheck.trans ((rangeFault_eq_none ..).2 h), rfl⟩

/-- Otherwise it faults with the first address above 0xFFF. -/
theorem exec_of_not_inMemory {i : Instr} {s : State} (hcheck : faultOf i s = rangeFault s.i.toNat (touchCount i))
    (h : ¬InMemory s.i.toNat (touchCount i)) :
    ∃ a, exec i s = .fault (.memRange a) ∧ FirstOutside s.i.toNat (touchCount i) a := by
  obtain ⟨f, hf⟩ := Option.ne_none_iff_exists'.1 (mt (rangeFault_eq_none ..).1 h)
  obtain ⟨a, rfl, ha⟩ := rangeFault_eq_some hf
  exact ⟨a, (exec_eq_fault ..).2 (hcheck.trans hf), ha⟩

/-! ## Decimal digits -/

/-- The three digits are the decimal ones of the byte, hundreds first (R113). -/
theorem bcdDigits_eq (b : Byte) : ∃ h d o : Byte, bcdDigits b = [h, d, o] ∧ h.toNat ≤ 2 ∧ d.toNat ≤ 9 ∧ o.toNat ≤ 9 ∧
    100 * h.toNat + 10 * d.toNat + o.toNat = b.toNat := by
  have hb := b.isLt
  refine ⟨_, _, _, rfl, ?_⟩
  simp only [BitVec.toNat_ofNat]
  omega

/-- Settles O31: the three bytes written at I are the digits. -/
theorem decimalDigitsAreStored : Obligations.DecimalDigitsAreStored := by
  refine fun s x => ⟨fun hin => ?stored, fun hout => ?fault⟩
  case stored =>
    obtain ⟨h, d, o, hdigits, hvalues⟩ := bcdDigits_eq (getV s x)
    have hmem : (effectOf (.ldB x) s).mem = Memory.writeList s.mem s.i.toNat [h, d, o] := by
      rw [effectOf_mem, storedBytes, hdigits]
    have hread : ∀ k, k < 3 → Memory.read (effectOf (.ldB x) s).mem (s.i.toNat + k) = [h, d, o].getD k 0 :=
      fun k hk => by rw [hmem, Memory.read_writeList_inside _ _ _ _ hk]
    refine ⟨effectOf (.ldB x) s, exec_of_inMemory rfl (.inr (Nat.succ_le_succ hin)),
      ⟨h, d, o, hread 0 (by decide), hread 1 (by decide), hread 2 (by decide), hvalues⟩, fun a ha => ?_, rfl⟩
    rw [hmem]
    exact Memory.read_writeList_outside _ _ _ _ fun ⟨hle, hlt⟩ => ha ⟨hle, Nat.le_of_lt_succ hlt⟩
  case fault =>
    have hno : ¬InMemory s.i.toNat 3 := by omega
    exact exec_of_not_inMemory (i := .ldB x) rfl hno

/-! ## Register blocks -/

/-- `FX55` completes exactly when its `x + 1` bytes are in memory. -/
theorem exec_stRegs_eq_next (s t : State) (x : Nibble) :
    exec (.stRegs x) s = .next t ↔ s.i.toNat + x.toNat ≤ 0xFFF ∧ effectOf (.stRegs x) s = t := by
  have hcheck : faultOf (.stRegs x) s = none ↔ s.i.toNat + x.toNat ≤ 0xFFF :=
    (rangeFault_eq_none s.i.toNat (x.toNat + 1)).trans (by omega)
  rw [exec_eq_next, hcheck]

/-- `FX65` completes when its `x + 1` bytes are in memory. -/
theorem exec_ldRegs_of_le {s : State} {x : Nibble} (h : s.i.toNat + x.toNat ≤ 0xFFF) :
    exec (.ldRegs x) s = .next (loadRegs s (regCount x)) :=
  exec_of_inMemory (i := .ldRegs x) rfl (.inr (Nat.succ_le_succ h))

/-- After `FX55` the byte at I + k is V[k]. -/
theorem read_effectOf_stRegs (s : State) {x : Nibble} {k : Nat} (hk : k ≤ x.toNat) :
    Memory.read (effectOf (.stRegs x) s).mem (s.i.toNat + k) = getV s (BitVec.ofNat 4 k) := by
  have hcount : k < regCount x := Nat.lt_succ_of_le hk
  have hlength : k < (storedBytes (.stRegs x) s).length := length_storedBytes (.stRegs x) s ▸ hcount
  rw [effectOf_mem, Memory.read_writeList_inside _ _ _ _ hlength]
  exact getD_regList s (regCount x) k hcount (regCount_le x)

/-- After `FX65` the register V[k] of its block is the byte at I + k. -/
theorem getV_loadRegs_regCount (s : State) (x k : Nibble) :
    getV (loadRegs s (regCount x)) k =
      if k.toNat ≤ x.toNat then Memory.read s.mem (s.i.toNat + k.toNat) else getV s k := by
  simp only [getV_loadRegs, regCount, Nat.lt_succ_iff]

/-- Settles O32: the bytes written at I are the registers in order, and no other byte is written. -/
theorem registersAreStoredFromIndex : Obligations.RegistersAreStoredFromIndex := by
  refine fun s x => ⟨fun hin => ⟨effectOf (.stRegs x) s, (exec_stRegs_eq_next ..).2 ⟨hin, rfl⟩, fun k hk => ?stored,
    fun a ha => ?others, rfl⟩, fun hout => ?fault⟩
  case stored =>
    have hindex : BitVec.ofNat 4 k.toNat = k := by rw [BitVec.ofNat_toNat, BitVec.setWidth_eq]
    rw [read_effectOf_stRegs s hk, hindex]
  case others =>
    rw [effectOf_mem]
    refine Memory.read_writeList_outside _ _ _ _ fun ⟨hle, hlt⟩ => ha ⟨hle, ?_⟩
    rw [length_storedBytes] at hlt
    exact Nat.le_of_lt_succ hlt
  case fault =>
    have hno : ¬InMemory s.i.toNat (x.toNat + 1) := by omega
    exact exec_of_not_inMemory (i := .stRegs x) rfl hno

/-- Settles O33: the block load reads its bytes from I and writes the register file alone. -/
theorem registersAreLoadedFromIndex : Obligations.RegistersAreLoadedFromIndex := by
  refine fun s x => ⟨fun hin => ⟨_, exec_ldRegs_of_le hin, getV_loadRegs_regCount s x, rfl⟩, fun hout => ?fault⟩
  case fault =>
    have hno : ¬InMemory s.i.toNat (x.toNat + 1) := by omega
    exact exec_of_not_inMemory (i := .ldRegs x) rfl hno

/-- Settles O34: the load reads back, register by register, the bytes the store wrote. -/
theorem storedRegistersLoadBack : Obligations.StoredRegistersLoadBack := by
  intro s t u x hstore hmem hi
  obtain ⟨hin, rfl⟩ := (exec_stRegs_eq_next ..).1 hstore
  refine ⟨_, exec_ldRegs_of_le (hi ▸ hin), fun k hk => ?_⟩
  have hindex : BitVec.ofNat 4 k.toNat = k := by rw [BitVec.ofNat_toNat, BitVec.setWidth_eq]
  rw [getV_loadRegs_regCount, if_pos hk, hmem, hi, read_effectOf_stRegs s hk, hindex]

/-- Settles O35: the fetch reads memory as the store left it, the lower register as the high byte. -/
theorem storedBytesAreFetched : Obligations.StoredBytesAreFetched := by
  intro s t x k p hstore hk hp
  obtain ⟨-, rfl⟩ := (exec_stRegs_eq_next ..).1 hstore
  rw [fetchWord, hp, Nat.add_assoc, read_effectOf_stRegs s (Nat.le_of_succ_le hk), read_effectOf_stRegs s hk]

end Sys2Proof.Machine
end

section
/-! SUPPORT. Reset, `load_program` and the placed word (10_state.md section 11, 20_memory.md section 8,
70_reset_and_hazards.md section 2): what memory holds and what the next step fetches. -/

namespace Sys2Proof.Machine

/-! ## The reset contents of memory -/

theorem Memory.base_font (j : Nat) : Memory.base (0x050 + j) = Config.font.getD j 0 := by
  rw [Memory.base, show Config.fontBase = 0x050 from rfl, if_pos (Nat.le_add_right ..), Nat.add_sub_cancel_left]

/-- Outside the 80 bytes of the font the reset contents are zero. -/
theorem Memory.base_outside_font {a : Nat} (h : a < 0x050 ∨ 0x0A0 ≤ a) : Memory.base a = 0 := by
  rw [Memory.base, show Config.fontBase = 0x050 from rfl]
  split
  next hle =>
    have hlength : Config.font.length ≤ a - 0x050 := by
      have : Config.font.length = 80 := rfl
      omega
    exact List.getD_eq_default _ _ hlength
  next => rfl

/-- Settles O54: the reset state field by field; its memory lists no byte, so every address reads as the reset
contents. -/
theorem resetValues : Obligations.ResetValues := fun s =>
  ⟨getV_reset, rfl, rfl, rfl, fun k => by simp [hostReset, State.reset, Vector.get_eq_getElem],
    fun j _ => Memory.base_font j, fun _ ha => Memory.base_outside_font ha, pixel_clearedFb, rfl, rfl, rfl,
    hostReset_keys_get s, rfl⟩

/-! ## Loading a program -/

/-- Settles O56: an accepted load is one write of its bytes from 0x200. -/
theorem loadProgramFrame : Obligations.LoadProgramFrame := by
  intro s t bytes h
  obtain ⟨-, rfl⟩ := (loadProgram_eq_ok ..).1 h
  exact ⟨fun a ha => Memory.read_writeList_outside _ _ _ _ ha, rfl⟩

/-- A state whose memory has just had two bytes or more written at PC fetches the first two. -/
theorem fetchWord_of_written (s : State) (m : Memory) (b0 b1 : Byte) (rest : List Byte) :
    fetchWord { s with mem := Memory.writeList m s.pc.toNat (b0 :: b1 :: rest) } = joinBytes b0 b1 := by
  have hread := fun k hk => Memory.read_writeList_inside m s.pc.toNat k (b0 :: b1 :: rest) hk
  have hhigh := hread 0 (by simp)
  have hlow := hread 1 (by simp)
  exact congrArg₂ joinBytes hhigh hlow

/-- Settles O57: reset leaves PC at 0x200, where the load begins, so the first step fetches the first two bytes. -/
theorem bootRunsTheFirstProgramWord : Obligations.BootRunsTheFirstProgramWord := by
  intro s t b0 b1 rest i h
  obtain ⟨-, rfl⟩ := (loadProgram_eq_ok ..).1 h
  have hfetch := fetchWord_of_written (hostReset s) (hostReset s).mem b0 b1 rest
  refine ⟨hfetch, fun hdecode => step_eq_mapNext_tick ?room (hfetch ▸ hdecode)⟩
  case room => exact (by decide : State.reset.pc.toNat ≤ 0xFFE)

/-! ## The placed word -/

theorem tableWordBytes_toNat (w : Word) : tableWordBytes 16 w.toNat = [hiByte w, loByte w] := by
  have hword : BitVec.ofNat 16 (w.toNat % 2 ^ 16) = w := by
    rw [Nat.mod_eq_of_lt w.isLt, BitVec.ofNat_toNat, BitVec.setWidth_eq]
  rw [tableWordBytes, hword]

/-- Settles O58: the two bytes of the word are written at PC, where the fetch joins them again. -/
theorem placedWordIsFetched : Obligations.PlacedWordIsFetched := by
  intro s w hfetch
  rw [withFetchWord_of_fetchable hfetch, tableWordBytes_toNat]
  refine ⟨?fetched, fun a h0 h1 => ?others, rfl⟩
  case fetched => rw [fetchWord_of_written, joinBytes_hiByte_loByte]
  case others =>
    refine Memory.read_writeList_outside _ _ _ _ fun ⟨hle, hlt⟩ => ?_
    have : a < s.pc.toNat + 2 := hlt
    omega

end Sys2Proof.Machine
end

section
/-! SUPPORT. `DXYN` (44_display.md section 3): the pixels a draw flips, its collision as a comparison of the framebuffers
before and after, and a second draw that undoes the first. -/

namespace Sys2Proof.Machine

/-- A pixel under a 1 bit of the sprite flips and every other stays (R122); a sprite has fewer rows than the screen. -/
theorem pixel_drawn (s : State) (x y n : Nibble) (px : Fin 64) (py : Fin 32) :
    (spriteBit s.mem s.i.toNat (getV s x).toNat (getV s y).toNat n.toNat px py →
      pixel (drawn s x y n).fb px py = !pixel s.fb px py) ∧
    (¬spriteBit s.mem s.i.toNat (getV s x).toNat (getV s y).toNat n.toNat px py →
      pixel (drawn s x y n).fb px py = pixel s.fb px py) :=
  (drawSprite_spec _ _ _ _ _ s.fb (n.isLt.trans (by decide))).1 px py

/-- A draw collides when it clears a set pixel: only a pixel under the sprite can be set before and clear after. -/
theorem drawn_collision (s : State) (x y n : Nibble) :
    (drawn s x y n).collision = true ↔
      ∃ px py, pixel s.fb px py = true ∧ pixel (drawn s x y n).fb px py = false := by
  have hunder := (drawSprite_spec s.mem s.i.toNat (getV s x).toNat (getV s y).toNat n.toNat s.fb
    (n.isLt.trans (by decide))).2
  refine hunder.trans (exists₂_congr fun px py => ?_)
  obtain ⟨hflip, hstay⟩ := pixel_drawn s x y n px py
  by_cases hbit : spriteBit s.mem s.i.toNat (getV s x).toNat (getV s y).toNat n.toNat px py
  · simp [hbit, hflip hbit]
  · simp [hbit, hstay hbit]

theorem getV_setFlag_F_eq_one (s : State) (f : Bool) : getV (setFlag s f) 0xF#4 = 1 ↔ f = true := by
  cases f <;> simp

/-- VF after a draw is the collision. -/
theorem getV_effectOf_drw_F_eq_one (s : State) (x y n : Nibble) :
    getV (effectOf (.drw x y n) s) 0xF#4 = 1 ↔
      ∃ px py, pixel s.fb px py = true ∧ pixel (drawn s x y n).fb px py = false :=
  (getV_setFlag_F_eq_one _ _).trans (drawn_collision s x y n)

/-- Settles O37: the draw leaves the drawn canvas with its collision in VF; a range that leaves memory faults. -/
theorem drawFlipsTheSpritePixels : Obligations.DrawFlipsTheSpritePixels := by
  refine fun s x y n => ⟨fun hin => ?drawn, fun hout => exec_of_not_inMemory (i := .drw x y n) rfl hout⟩
  case drawn =>
    exact ⟨effectOf (.drw x y n) s, exec_of_inMemory rfl hin, pixel_drawn s x y n, (getV_setFlag_F _ _).symm,
      getV_effectOf_drw_F_eq_one s x y n, rfl, fun _ hz => getV_setFlag_ne _ _ hz, rfl⟩

/-- A sprite drawn on the canvas it has left gives back the framebuffer from before: each pixel under it flips twice. -/
theorem drawn_drawn_fb {s u : State} {x y n : Nibble} (hmem : u.mem = s.mem) (hi : u.i = s.i)
    (hx : getV u x = getV s x) (hy : getV u y = getV s y) (hfb : u.fb = (drawn s x y n).fb) :
    (drawn u x y n).fb = s.fb := by
  refine fb_ext _ _ fun px py => ?_
  obtain ⟨hflip, hstay⟩ := pixel_drawn s x y n px py
  obtain ⟨hflip', hstay'⟩ := pixel_drawn u x y n px py
  rw [hmem, hi, hx, hy, hfb] at hflip' hstay'
  by_cases hbit : spriteBit s.mem s.i.toNat (getV s x).toNat (getV s y).toNat n.toNat px py
  · rw [hflip' hbit, hflip hbit, Bool.not_not]
  · rw [hstay' hbit, hstay hbit]

/-- Settles O38: the second draw goes from the first one's framebuffer back to the one before it, so a pixel it clears
is one the first draw turned on. -/
theorem drawingTwiceRestores : Obligations.DrawingTwiceRestores := by
  intro s t u x y n hdraw hmem hi hx hy hfb
  obtain ⟨hcheck, rfl⟩ := (exec_eq_next ..).1 hdraw
  have hin : InMemory u.i.toNat n.toNat := hi ▸ (rangeFault_eq_none ..).1 hcheck
  have hrestored : (drawn u x y n).fb = s.fb := drawn_drawn_fb hmem hi hx hy hfb
  refine ⟨effectOf (.drw x y n) u, exec_of_inMemory rfl hin, hrestored, ?collision⟩
  case collision =>
    rw [getV_effectOf_drw_F_eq_one, hrestored, hfb]
    exact exists₂_congr fun _ _ => and_comm

end Sys2Proof.Machine
end
